-- ==== Sys2Proof/Word.lean ====
section
/-! DEFINITION. The plain value types of the engine: bytes, words, the five-word register
group, and what stands on the command port. -/

namespace Sys2Proof

/-- A byte, 8 bits, unsigned (R7 (a)). -/
abbrev Byte := BitVec 8

/-- A word, 32 bits, unsigned (R5 `WORD_W`, R7 (a)). -/
abbrev Word := BitVec 32

/-- Five 32-bit registers, the shape of `H[0..4]` (R12) and of `A[0..4]` (R20). -/
structure Words5 where
  w0 : Word
  w1 : Word
  w2 : Word
  w3 : Word
  w4 : Word
  deriving DecidableEq, Repr, Inhabited

/-- One presented command: the command word `CMD[15:0]` and the payload lanes `DATA[0..63]`
(R61, R69). -/
structure PortInput where
  cmd  : BitVec 16
  data : Vector Byte 64
  deriving DecidableEq, Repr

end Sys2Proof
end

