-- ==== Sys2Proof/Syntax.lean ====
section
/-! DEFINITION. The four commands, one constructor for each row of spec/opcode_table.json (R60). -/

namespace Sys2Proof

/-- `Command ::= CREATE | APPEND(n, d) | FINALIZE | DESTROY` (R60). The handle operand is implicit:
one block is one instance (R72). -/
inductive Instr where
  /-- `CREATE`: make the engine instance (R80). -/
  | create
  /-- `APPEND(n, d)`: add the first `n` bytes of the 64 payload bytes `d` to the message (R90). -/
  | append (n : Nat) (d : List Byte)
  /-- `FINALIZE`: pad, hash every block, answer the digest (R140). -/
  | finalize
  /-- `DESTROY`: end the instance (R82). -/
  | destroy
  deriving DecidableEq, Repr

end Sys2Proof
end

