-- ==== Sys2Proof/Config.lean ====
section
/-! DEFINITION. What an implementation fixes (`MAX_CHUNKS`, R52; `CMD_LATENCY`, R6), the constants the source fixes
(R5), and the free values that stand for state the spec leaves unspecified. -/

namespace Sys2Proof

/-- The one parameter of the model (R6, R52): `MAX_CHUNKS`, `none` for unbounded chunk memory. -/
structure Config where
  maxChunks : Option Nat
  deriving DecidableEq, Repr

namespace Config

/-- The range the spec gives `MAX_CHUNKS`: `none`, or `some M` with `M ≥ 2` (R52). -/
def wf (c : Config) : Bool :=
  match c.maxChunks with
  | none => true
  | some m => decide (2 ≤ m)

/-- The spec's default, `MAX_CHUNKS = none` (R52). -/
def default : Config := { maxChunks := none }

/-- FREE VALUE (log entry 3, DESIGN CHOICE, safe): a 32-bit value the spec leaves unspecified, for the `place`-th word
of the draw `draw`, made when a register group becomes unspecified. It has no body, so nothing constrains it. -/
opaque freeWord (draw place : Nat) : Word

/-- FREE VALUE (log entry 3, DESIGN CHOICE, safe): the same for a control register that holds a number or a name. -/
opaque freeNat (draw place : Nat) : Nat

/-- FREE VALUE (log entries 3 and 18, DESIGN CHOICE, safe): the number of the next draw, from the number of the
latest one and from what storage held (`held`). Nothing constrains it, so a later free value may depend on an old
message or digest and may not: R194 promises neither. -/
opaque nextDraw {Held : Type} (draw : Nat) (held : Held) : Nat

/-- `CMD_LATENCY`, the open parameter of R6 and R195: any value, used by no rule and so by nothing here (log
entry 14). -/
opaque cmdLatency : Instr → Nat

end Config

/-- `CHUNK_CAP`: capacity of one chunk, and the block size, in bytes (R5). -/
abbrev chunkCap : Nat := 64

/-- `MAX_APPEND`: the most bytes one `APPEND` may carry (R5, R90). -/
abbrev maxAppend : Nat := 64

/-- `LEN_FIELD_OFF`: offset of the length field in the final block (R5, R110). -/
abbrev lenFieldOff : Nat := 56

/-- The greatest number of message bytes whose bit length fits the 64-bit length field (R98). -/
abbrev maxBytes : Nat := 2 ^ 61 - 1

end Sys2Proof
end

