-- ==== Sys2Proof/Machine/State.lean ====
section
/-! DEFINITION. The engine's state (file 10_state.md), what the host presents to it, what it answers, and
the state after reset. -/

namespace Sys2Proof.Machine

/-- The lifecycle register's three values (R11). -/
inductive Phase where
  /-- No engine instance exists. -/
  | absent
  /-- The instance accumulates appended bytes. -/
  | accum
  /-- The instance was finalized and holds a digest. -/
  | done
  deriving DecidableEq, Repr, Inhabited

/-- The micro-steps of `FINALIZE`, the values of `FSTEP` (R21). -/
inductive FStep where
  | pad
  | load
  | expand
  | init
  | round
  | fold
  deriving DecidableEq, Repr, Inhabited

/-- The seven statuses of a response (R161). -/
inductive Status where
  | ok
  | oversizedChunk
  | emptyInput
  | illegalCommand
  | stateError
  | lengthOverflow
  | bufferFull
  deriving DecidableEq, Repr, Inhabited

/-- One response: `STATUS` and `DIGEST` (R68). `digest = none` says that `DIGEST` is unspecified in this
response: R24 gives it no value there. -/
structure Response where
  status : Status
  digest : Option (BitVec 160)
  deriving DecidableEq, Repr

/-- One thing the host does (R197). -/
inductive HostEvent where
  /-- Present a command word and payload. -/
  | command (p : PortInput)
  /-- Read the `DIGEST` port, which is no command (R145). -/
  | readDigest
  /-- Raise `RST` between commands (R185). -/
  | reset
  /-- Raise `RST` while the presented command is in progress, so that it is abandoned (R185; log entry 12,
  DEDUCED, safe). -/
  | resetDuring (p : PortInput)
  deriving DecidableEq, Repr

/-- What is alive only inside a `FINALIZE` command: the datapath of R19 and R20 and the control state of
R21, with the block count `NB` that R140 and R143 fix after `PAD`. -/
structure Transient where
  /-- `W[0..79]`, the message schedule (R19). -/
  w     : Vector Word 80
  /-- `A[0..4]`, the working registers (R20). -/
  a     : Words5
  /-- `TEMP` (R20). -/
  temp  : Word
  /-- `FSTEP` (R21). -/
  fstep : FStep
  /-- `BLK`, the index of the block being processed (R21). -/
  blk   : Nat
  /-- `NB`, the number of blocks (R140, R143; log entry 11, DEDUCED, safe). -/
  nb    : Nat
  /-- `T`, the round index, 0 to 79 (R21). -/
  t     : Fin 80
  /-- `ML`, the message length in bits (R21, R106). -/
  ml    : BitVec 64
  deriving DecidableEq, Repr

/-- Chunk memory: the `data` bytes of all chunks, byte `(k, o)` at the linear byte number `64k + o`
(R40; log entry 8, DEDUCED, safe). Addresses rise strictly and no listed byte is zero, the value `new_chunk()`
gives every byte (R92; log entry 2, DEDUCED, safe). -/
abbrev Memory := List Host.Cell

/-- The state of the engine and of the run. -/
structure State where
  /-- The parameter `MAX_CHUNKS`, fixed for the machine (R52). -/
  cfg       : Config
  /-- `PHASE` (R11). -/
  phase     : Phase
  /-- `H[0..4]` (R12). -/
  h         : Words5
  /-- `CHUNKS[k].data` for every `k` (R14, R40). -/
  mem       : Memory
  /-- `CHUNKS[k].len` for `k = 0, 1, …` in sequence order; its length is `NCHUNKS` (R14, R15). -/
  lens      : List Nat
  /-- What is alive only inside `FINALIZE` (R19 to R21). -/
  tr        : Transient
  /-- What the host does next, first event first (the command inputs of R10; log entries 7 and 15, DESIGN
  CHOICE; model's own field). -/
  inputs    : List HostEvent
  /-- The response on the output ports, `none` while none is present (R29, R69). -/
  port      : Option Response
  /-- The observation of the run: every response so far, oldest first (R196; log entry 15,
  DESIGN CHOICE; model's own field). -/
  observed  : List Response
  /-- What the host's last read of the `DIGEST` port returned (R145; log entry 15, DESIGN
  CHOICE; model's own field). -/
  hostRead  : Option (BitVec 160)
  /-- The fault mark on the run (R178). -/
  faultMark : Bool
  /-- The number of the latest draw of the free values, made when registers became unspecified
  (log entries 3, 15 and 18, DESIGN CHOICE; model's own field). -/
  freeIdx   : Nat
  deriving DecidableEq, Repr

/-- Why the machine stops. -/
inductive Fault where
  /-- Raised by `memRead` and `memWrite` for an address or a width outside R41's bounds. R41: "it should
  fault rather than wrap". No state that keeps the chunk invariants meets it. Safe. -/
  | chunkAccess
  /-- Raised by a host read of the `DIGEST` port while `PHASE ≠ DONE`: R24, "a model must give it no value
  (a read of it is a fault in the model)". Safe. -/
  | digestUnspecified
  deriving DecidableEq, Repr

/-- Why an instruction is turned away by the model. -/
inductive Refusal where
  /-- Raised by `exec` for an instruction that has no meaning yet; no arm raises it in this model. Safe. -/
  | notModelled (mnemonic : String)
  deriving DecidableEq, Repr

/-- Registers the spec leaves unspecified after reset, at the values log entry 1 names (DESIGN CHOICE,
unsafe). -/
def Transient.reset : Transient :=
  { w := Vector.replicate 80 0#32, a := ⟨0#32, 0#32, 0#32, 0#32, 0#32⟩, temp := 0#32, fstep := .pad,
    blk := 0, nb := 0, t := 0, ml := 0#64 }

/-- The state after reset (R29, R185): `PHASE = ABSENT`, no chunk exists, no response is pending, and the
unspecified registers at the values of log entry 1 (DESIGN CHOICE, unsafe). `MAX_CHUNKS` has its default (R52,
log entry 10). -/
def State.reset : State :=
  { cfg := Config.default, phase := .absent, h := ⟨0#32, 0#32, 0#32, 0#32, 0#32⟩, mem := [], lens := [],
    tr := Transient.reset, inputs := [], port := none, observed := [], hostRead := none,
    faultMark := false, freeIdx := 0 }

end Sys2Proof.Machine
end

