-- ==== Sys2Proof/Machine/Flags.lean ====
section
/-! DEFINITION. The engine has no condition codes (R23). What stands in their place is the status of a
response (R161) and the fault mark on the run (R178). -/

namespace Sys2Proof.Machine

/-- `STATUS[2:0]`, the codes of R161. Code 7 is never produced. -/
def Status.code : Status → BitVec 3
  | .ok => 0#3
  | .oversizedChunk => 1#3
  | .emptyInput => 2#3
  | .illegalCommand => 3#3
  | .stateError => 4#3
  | .lengthOverflow => 5#3
  | .bufferFull => 6#3

/-- The statuses that set the fault mark: the four that stand for behaviour the source leaves undefined or
does not have. `OversizedChunk` and `EmptyInput` are documented results (R178). -/
def Status.marksRun : Status → Bool
  | .ok | .oversizedChunk | .emptyInput => false
  | .illegalCommand | .stateError | .lengthOverflow | .bufferFull => true

end Sys2Proof.Machine
end

