-- ==== Sys2Proof/Machine/Operands.lean ====
section
/-! DEFINITION. The primitives of R8 on words and bytes, the operand slices of `APPEND`, and the views of
`H` and `ML` that the rules read. -/

namespace Sys2Proof.Machine

/-- `rotl32(x, n)`, for `0 < n < 32` (R8, R126). -/
def rotl32 (x : Word) (n : Nat) : Word := (x <<< n) ||| (x >>> (32 - n))

/-- `be32(b0, b1, b2, b3)`: the byte at the lower offset is the more significant (R8, R44). -/
def be32 (b0 b1 b2 b3 : Byte) : Word :=
  (b0.setWidth 32 <<< 24) ||| (b1.setWidth 32 <<< 16) ||| (b2.setWidth 32 <<< 8) ||| b3.setWidth 32

/-- Word `i` of a 64-byte block: `be32(m[4i], m[4i+1], m[4i+2], m[4i+3])` (R44, R115). -/
def blockWord (m : List Byte) (i : Nat) : Word :=
  be32 (m.getD (4 * i) 0#8) (m.getD (4 * i + 1) 0#8) (m.getD (4 * i + 2) 0#8) (m.getD (4 * i + 3) 0#8)

/-- `X[i]`: element `i` of a five-word register file (R8). -/
def hashWord (x : Words5) (i : Fin 5) : Word :=
  match i with
  | 0 => x.w0
  | 1 => x.w1
  | 2 => x.w2
  | 3 => x.w3
  | 4 => x.w4

/-- The payload bytes `d[0..n−1]` that count (R64). -/
def payloadBytes (n : Nat) (d : List Byte) : List Byte := d.take n

/-- The payload bytes `d[r..n−1]` that spill into a new chunk (R91). -/
def payloadRest (r n : Nat) (d : List Byte) : List Byte := (d.take n).drop r

/-- Byte `i` of the length field: `ML[8(7−i)+7 : 8(7−i)]` (R110). -/
def lengthByte (ml : BitVec 64) (i : Nat) : Byte := ml.extractLsb' (8 * (7 - i)) 8

/-- The eight bytes of the length field, most significant first (R45, R110). -/
def be64 (ml : BitVec 64) : List Byte := (List.range 8).map (lengthByte ml)

/-- `DIGEST = H[0] ‖ H[1] ‖ H[2] ‖ H[3] ‖ H[4]`, `H[0]` in bits 159..128 (R24). -/
def digestOf (h : Words5) : BitVec 160 := h.w0 ++ h.w1 ++ h.w2 ++ h.w3 ++ h.w4

/-- The digest as 20 bytes: byte `4i + j` is `H[i][31−8j : 24−8j]` (R46, R146). -/
def digestBytes (h : Words5) : List Byte :=
  [h.w0, h.w1, h.w2, h.w3, h.w4].flatMap fun x => (List.range 4).map fun j => x.extractLsb' (24 - 8 * j) 8

/-- The constants of R12, the value `CREATE` gives `H`. -/
def initialHash : Words5 :=
  ⟨0x67452301#32, 0xEFCDAB89#32, 0x98BADCFE#32, 0x10325476#32, 0xC3D2E1F0#32⟩

end Sys2Proof.Machine
end

