-- ==== Sys2Proof/Machine/Ops.lean ====
section
/-! DEFINITION. The shared operations: sequencing, chunk memory (file 20_memory.md), answering and raising
(R68, R170), and what becomes unspecified (R28, R82). -/

namespace Sys2Proof.Machine

/-- What an instruction or a micro-step answers. -/
abbrev Result (α : Type) := Host.Outcome α Fault Refusal

/-- One operation after another: a stop of the first is the stop of the whole. -/
def andThen {α β : Type} (o : Result α) (f : α → Result β) : Result β :=
  match o with
  | .next a => f a
  | .fault r => .fault r
  | .refused r => .refused r

/-! ### Bytes of chunk memory -/

/-- What an unlisted address reads as: the zero that `new_chunk()` writes into every byte of a chunk
(R92; log entry 2, DEDUCED, safe). -/
def unlistedByte : Byte := 0#8

/-- The byte at a linear byte number (R40). -/
def Memory.readByte : Memory → Nat → Byte
  | [], _ => unlistedByte
  | (b, v) :: m, a => if b = a then v else Memory.readByte m a

/-- Store one byte, keeping the canonical form. -/
def Memory.writeByte : Memory → Nat → Byte → Memory
  | [], a, v => if v = unlistedByte then [] else [(a, v)]
  | (b, x) :: m, a, v =>
    if a < b then (if v = unlistedByte then (b, x) :: m else (a, v) :: (b, x) :: m)
    else if a = b then (if v = unlistedByte then m else (a, v) :: m)
    else (b, x) :: Memory.writeByte m a v

/-- Store the bytes of a list at consecutive addresses, the first at `a`. -/
def Memory.writeBytes : Memory → Nat → List Byte → Memory
  | m, _, [] => m
  | m, a, v :: vs => Memory.writeBytes (Memory.writeByte m a v) (a + 1) vs

/-- Every listed address is above `lo`, addresses rise strictly, and no listed byte is the unlisted
one. -/
def Memory.risesFrom : Nat → Memory → Bool
  | _, [] => true
  | lo, (b, x) :: m => decide (lo ≤ b) && decide (x ≠ unlistedByte) && Memory.risesFrom (b + 1) m

/-- The canonical form of chunk memory. -/
def Memory.wf (m : Memory) : Bool := Memory.risesFrom 0 m

/-! ### Chunk memory -/

/-- `NCHUNKS` (R15). -/
def nchunks (s : State) : Nat := s.lens.length

/-- `CHUNKS[k].len`, 0 where no such chunk exists. -/
def chunkLen (s : State) (k : Nat) : Nat := s.lens.getD k 0

/-- The linear byte number `64k + o` of the address `(k, o)` (R40). -/
def cellAddr (k o : Nat) : Nat := chunkCap * k + o

/-- `CHUNKS[k].data[o]`. -/
def chunkByte (s : State) (k o : Nat) : Byte := Memory.readByte s.mem (cellAddr k o)

/-- The bounds of R41: the chunk exists and the access does not leave it. -/
def inChunk (s : State) (k o n : Nat) : Bool := decide (k < nchunks s) && decide (o + n ≤ chunkCap)

/-- `MemRead((k, o), n)` (R41). -/
def memRead (s : State) (k o n : Nat) : Result (List Byte) :=
  if inChunk s k o n then .next ((List.range n).map fun j => chunkByte s k (o + j))
  else .fault .chunkAccess

/-- `MemWrite((k, o), n, v)` (R41). It does not change any `len`. -/
def memWrite (s : State) (k o n : Nat) (v : List Byte) : Result State :=
  if inChunk s k o n && decide (v.length = n) then
    .next { s with mem := Memory.writeBytes s.mem (cellAddr k o) v }
  else .fault .chunkAccess

/-- `CHUNKS[k].len <- l` (R91). -/
def setLen (s : State) (k l : Nat) : State := { s with lens := s.lens.set k l }

/-- `new_chunk()`: one chunk of 64 zero bytes with `len = 0` at the tail (R92). -/
def newChunk (s : State) : State :=
  { s with
    mem := Memory.writeBytes s.mem (cellAddr (nchunks s) 0) (List.replicate chunkCap 0#8)
    lens := s.lens ++ [0] }

/-- `TOTAL_BYTES`, the sum of every chunk's `len` (R96). -/
def totalBytes (s : State) : Nat := s.lens.sum

/-- `TOTAL_BITS`, 8 times that, as a 64-bit unsigned value (R18, R96). -/
def totalBits (s : State) : BitVec 64 := BitVec.ofNat 64 (8 * totalBytes s)

/-- `⌈x / 64⌉`: the chunks that `x` bytes take (R17). -/
def chunksFor (x : Nat) : Nat := (x + (chunkCap - 1)) / chunkCap

/-- The test of R90 and R98 (b): `MAX_CHUNKS = some M` and `⌈(TOTAL_BYTES + n)/64⌉ > M − 1`. -/
def wouldExceedCapacity (s : State) (n : Nat) : Bool :=
  match s.cfg.maxChunks with
  | none => false
  | some m => decide (m < chunksFor (totalBytes s + n) + 1)

/-! ### Answering -/

/-- Put one response on the output ports and into the run's observation (R68, R196). -/
def answer (r : Response) (s : State) : State :=
  { s with port := some r, observed := s.observed ++ [r] }

/-- `respond (OK, …)`: the answer to a command that was performed. -/
def respondOk (digest : Option (BitVec 160)) (s : State) : State := answer ⟨.ok, digest⟩ s

/-- `raise E`, this engine's taking of an exception (R170): no state is saved, no mode changes and control
goes nowhere; the response carries `E`, `DIGEST` is unspecified, and the four statuses of R178 set the fault
mark, which nothing clears (log entry 13, DEDUCED, safe). There is no return from it (R171). -/
def raise (e : Status) (s : State) : State :=
  { answer ⟨e, none⟩ s with faultMark := s.faultMark || e.marksRun }

/-- `IllegalCommand`, raised at decode (R67, R164). -/
def raiseIllegalCommand (s : State) : State := raise .illegalCommand s

/-! ### What becomes unspecified -/

/-- The micro-step a number names, every one of the six for some number. -/
def fstepOf (k : Nat) : FStep :=
  match k % 6 with
  | 0 => .pad
  | 1 => .load
  | 2 => .expand
  | 3 => .init
  | 4 => .round
  | _ => .fold

/-- Free values for everything that R19, R20 and R21 leave unspecified outside `FINALIZE`. -/
def freeTransient (draw : Nat) : Transient :=
  { w := ⟨((List.range 80).map fun i => Config.freeWord draw i).toArray, by simp⟩
    a := ⟨Config.freeWord draw 80, Config.freeWord draw 81, Config.freeWord draw 82,
          Config.freeWord draw 83, Config.freeWord draw 84⟩
    temp := Config.freeWord draw 85
    fstep := fstepOf (Config.freeNat draw 0)
    blk := Config.freeNat draw 1
    nb := Config.freeNat draw 2
    t := ⟨Config.freeNat draw 3 % 80, Nat.mod_lt _ (by decide)⟩
    ml := Config.freeWord draw 86 ++ Config.freeWord draw 87 }

/-- Free values for `H[0..4]`. -/
def freeHash (draw : Nat) : Words5 :=
  ⟨Config.freeWord draw 88, Config.freeWord draw 89, Config.freeWord draw 90,
   Config.freeWord draw 91, Config.freeWord draw 92⟩

/-- The draw at the end of a `FINALIZE`: free, and free to depend on `H` and chunk memory, from which the command
computed what the datapath holds, and on the draws before (R194; log entry 18, DESIGN CHOICE, safe). -/
def finalizeDraw (s : State) : Nat := Config.nextDraw s.freeIdx (s.h, s.mem, s.lens)

/-- The draw at the end of an instance: free, and free to depend on everything the storage of the engine holds and
on the draws before (R194; log entry 18, DESIGN CHOICE, safe). -/
def releaseDraw (s : State) : Nat := Config.nextDraw s.freeIdx (s.h, s.tr, s.mem, s.lens)

/-- The datapath and the control state become unspecified (R19, R20, R21). -/
def forgetTransient (s : State) : State :=
  { s with tr := freeTransient (finalizeDraw s), freeIdx := finalizeDraw s }

/-- No instance exists any more: every chunk is released (log entry 4, DEDUCED, safe), `H` and the rest are
unspecified (R82, R186; log entry 3). Whether what they hold depends on the old message or digest is left open as
R194 leaves it: neither erasure nor persistence can be proved (log entry 18, DESIGN CHOICE, safe). -/
def releaseInstance (s : State) : State :=
  { s with
    phase := .absent
    h := freeHash (releaseDraw s)
    mem := []
    lens := []
    tr := freeTransient (releaseDraw s)
    freeIdx := releaseDraw s }

/-! ### The digest port and the reset input -/

/-- The `DIGEST` output: `H` while `PHASE = DONE`, no value otherwise (R24, R145). -/
def digestPort (s : State) : Option (BitVec 160) :=
  if s.phase = .done then some (digestOf s.h) else none

/-- The host reads the `DIGEST` port (R145): no side effect on the engine, and a fault where the port has
no value (R24; log entry 5, DEDUCED, safe). -/
def readDigestPort (s : State) : Result State :=
  match digestPort s with
  | some d => .next { s with hostRead := some d }
  | none => .fault .digestUnspecified

/-- `RST` (R185, R186): the instance is gone, no response is given and none is pending; what belongs
to the run stays (log entry 6, DEDUCED, safe). -/
def applyReset (s : State) : State := { releaseInstance s with port := none }

/-- `RST` while the presented command is in progress: the command is abandoned and gives no response (R185; log entry
12, DEDUCED, safe). How far it had come is left open, so the draw may also depend on what was presented (R194; log
entry 18, DESIGN CHOICE, safe). -/
def abandonCommand (p : PortInput) (s : State) : State :=
  applyReset { s with freeIdx := Config.nextDraw s.freeIdx p }

end Sys2Proof.Machine
end

