-- ==== Sys2Proof/Machine/Append.lean ====
section
/-! DEFINITION. The ChunkBuffer and the command `APPEND` (file 41_chunkbuffer_append.md). -/

namespace Sys2Proof.Machine

/-- The tail has no room: no chunk exists or the last one is full (R91). -/
def tailFull (s : State) : Bool :=
  decide (nchunks s = 0) || decide (chunkLen s (nchunks s - 1) = chunkCap)

/-- A tail with room for at least one byte (first line of `absorb`, R91). -/
def openTail (s : State) : State := if tailFull s then newChunk s else s

/-- Store `n − r` bytes at offset 0 of one new chunk (the spill of R91). -/
def spill (r n : Nat) (d : List Byte) (s : State) : Result State :=
  andThen (memWrite (newChunk s) (nchunks s) 0 (n - r) (payloadRest r n d)) fun s =>
    .next (setLen s (nchunks s - 1) (n - r))

/-- Fill the tail `k`, occupied to `l`, with `r` bytes, then spill what is left (R91). -/
def fillTail (k l r n : Nat) (d : List Byte) (s : State) : Result State :=
  andThen (memWrite s k l r (payloadBytes r d)) fun s =>
    if r < n then spill r n d (setLen s k (l + r)) else .next (setLen s k (l + r))

/-- `absorb(n, d)` (R91): `n` bytes go directly after the last stored byte. -/
def absorb (n : Nat) (d : List Byte) (s : State) : Result State :=
  let s := openTail s
  let k := nchunks s - 1
  let l := chunkLen s k
  fillTail k l (min n (chunkCap - l)) n d s

/-- `APPEND(n, d)`: the checks in the order of R90, then R91 and R94. -/
def execAppend (n : Nat) (d : List Byte) (s : State) : Result State :=
  if s.phase ≠ .accum then .next (raise .stateError s)
  else if maxAppend < n then .next (raise .oversizedChunk s)
  else if maxBytes < totalBytes s + n then .next (raise .lengthOverflow s)
  else if wouldExceedCapacity s n then .next (raise .bufferFull s)
  else if n = 0 then .next (respondOk none s)
  else andThen (absorb n d s) fun s => .next (respondOk none s)

end Sys2Proof.Machine
end

