-- ==== Sys2Proof/Machine/Compressor.lean ====
section
/-! DEFINITION. The Compressor, micro-steps `INIT`, `ROUND` and `FOLD` (file 44_compressor.md). -/

namespace Sys2Proof.Machine

/-- The round function `F(t, b, c, d)` (R121). -/
def roundF (t : Fin 80) (b c d : Word) : Word :=
  if t.val ≤ 19 then (b &&& c) ||| (~~~b &&& d)
  else if t.val ≤ 39 then b ^^^ c ^^^ d
  else if t.val ≤ 59 then (b &&& c) ||| (b &&& d) ||| (c &&& d)
  else b ^^^ c ^^^ d

/-- The round constant `K(t)` (R122). -/
def roundK (t : Fin 80) : Word :=
  if t.val ≤ 19 then 0x5A827999#32
  else if t.val ≤ 39 then 0x6ED9EBA1#32
  else if t.val ≤ 59 then 0x8F1BBCDC#32
  else 0xCA62C1D6#32

/-- `TEMP` of round `t` (R123): additions modulo 2^32 (R125). -/
def roundTemp (t : Fin 80) (w : Vector Word 80) (a : Words5) : Word :=
  rotl32 a.w0 5 + roundF t a.w1 a.w2 a.w3 + a.w4 + w[t] + roundK t

/-- The five register writes of one round, from the values before it (R123). -/
def roundWork (t : Fin 80) (w : Vector Word 80) (a : Words5) : Words5 :=
  ⟨roundTemp t w a, a.w0, rotl32 a.w1 30, a.w2, a.w3⟩

/-- `H[i] +32 A[i]` for every `i` (R124). -/
def foldWork (h a : Words5) : Words5 :=
  ⟨h.w0 + a.w0, h.w1 + a.w1, h.w2 + a.w2, h.w3 + a.w3, h.w4 + a.w4⟩

/-- `INIT` (R120): `A <- H`, `T <- 0`; the next micro-step is `ROUND`. -/
def microInit (s : State) : State :=
  { s with tr := { s.tr with a := s.h, t := 0, fstep := .round } }

/-- The round after `t`: `T` goes up to 79 and never wraps (R21). -/
def nextRound (t : Fin 80) : Fin 80 := if h : t.val < 79 then ⟨t.val + 1, by omega⟩ else t

/-- `ROUND` (R123). -/
def microRound (s : State) : State :=
  { s with
    tr := { s.tr with
      temp := roundTemp s.tr.t s.tr.w s.tr.a
      a := roundWork s.tr.t s.tr.w s.tr.a
      t := nextRound s.tr.t
      fstep := if s.tr.t.val < 79 then .round else .fold } }

/-- Another block follows the one at `BLK` (R143). -/
def moreBlocks (s : State) : Bool := decide (s.tr.blk + 1 < s.tr.nb)

/-- `FOLD` (R124); where another block follows, `BLK <- BLK + 1` and the next micro-step is `LOAD`
(R143). -/
def microFold (s : State) : State :=
  { s with
    h := foldWork s.h s.tr.a
    tr := { s.tr with
      blk := if moreBlocks s then s.tr.blk + 1 else s.tr.blk
      fstep := if moreBlocks s then .load else .fold } }

end Sys2Proof.Machine
end

