-- ==== Sys2Proof/Machine/Padder.lean ====
section
/-! DEFINITION. The Padder, micro-step `PAD` (file 42_padder.md). -/

namespace Sys2Proof.Machine

/-- `ML` is sampled when `FINALIZE` starts, before `PAD` writes anything (R106); the next micro-step is
`PAD` (R143). -/
def latchLength (s : State) : State :=
  { s with tr := { s.tr with ml := totalBits s, fstep := .pad } }

/-- The marker byte of R105: a 1 bit, then seven zero bits (R46). -/
def marker : Byte := 0x80#8

/-- The length field at offsets 56..63 of the tail (R110). -/
def writeLengthField (s : State) : Result State :=
  memWrite s (nchunks s - 1) lenFieldOff 8 (be64 s.tr.ml)

/-- The three cases of `PAD` on the tail `k` occupied to `l` (R107, R108, R109). -/
def writeMarker (k l : Nat) (s : State) : Result State :=
  if l < 56 then memWrite s k l 1 [marker]
  else if l ≤ 63 then
    andThen (memWrite s k l 1 [marker]) fun s =>
    andThen (memWrite s k (l + 1) (63 - l) (List.replicate (63 - l) 0#8)) fun s =>
    .next (newChunk s)
  else memWrite (newChunk s) (nchunks s) 0 1 [marker]

/-- After `PAD` the block walk starts: `BLK <- 0`, `NB` is fixed, the next micro-step is `LOAD` (R143). -/
def startWalk (s : State) : State :=
  { s with tr := { s.tr with blk := 0, nb := nchunks s, fstep := .load } }

/-- `PAD` (R105): the marker case, then the length field. No `len` changes (R112). -/
def microPad (s : State) : Result State :=
  andThen (writeMarker (nchunks s - 1) (chunkLen s (nchunks s - 1)) s) fun s =>
  andThen (writeLengthField s) fun s =>
  .next (startWalk s)

end Sys2Proof.Machine
end

