-- ==== Sys2Proof/Machine/Schedule.lean ====
section
/-! DEFINITION. The ScheduleExpander, micro-steps `LOAD` and `EXPAND` (file 43_schedule_expander.md). -/

namespace Sys2Proof.Machine

/-- One assignment of `LOAD`: `W[i] <- be32(m[4i], m[4i+1], m[4i+2], m[4i+3])` (R115). -/
def loadWord (m : List Byte) (w : Vector Word 80) (i : Fin 16) : Vector Word 80 :=
  w.set i.val (blockWord m i.val)

/-- `LOAD` of the sixteen words (R115). -/
def loadWords (m : List Byte) (w : Vector Word 80) : Vector Word 80 := (List.finRange 16).foldl (loadWord m) w

/-- One assignment of `EXPAND`, for `i = k + 16`:
`W[i] <- rotl32(W[i−3] XOR W[i−8] XOR W[i−14] XOR W[i−16], 1)` (R116). -/
def expandWord (w : Vector Word 80) (k : Fin 64) : Vector Word 80 :=
  w.set (k.val + 16) (rotl32 (w[k.val + 13] ^^^ w[k.val + 8] ^^^ w[k.val + 2] ^^^ w[k.val]) 1)

/-- `W[16..79]`, in increasing order (R116). -/
def expandWords (w : Vector Word 80) : Vector Word 80 := (List.finRange 64).foldl expandWord w

/-- `LOAD` (R115): all 64 data bytes of chunk `BLK`, whatever its `len`; the next micro-step is `EXPAND`. -/
def microLoad (s : State) : Result State :=
  andThen (memRead s s.tr.blk 0 chunkCap) fun m =>
    .next { s with tr := { s.tr with w := loadWords m s.tr.w, fstep := .expand } }

/-- `EXPAND` (R116); the next micro-step is `INIT`. -/
def microExpand (s : State) : State :=
  { s with tr := { s.tr with w := expandWords s.tr.w, fstep := .init } }

end Sys2Proof.Machine
end

