-- ==== Sys2Proof/Machine/Finalize.lean ====
section
/-! DEFINITION. The command `FINALIZE` and the block walk (file 45_finalize_digest.md), and the finer
machine of R143 that takes one micro-step at a time. -/

namespace Sys2Proof.Machine

/-- `k` rounds, one after another (R140). -/
def rounds : Nat → State → State
  | 0, s => s
  | k + 1, s => rounds k (microRound s)

/-- One pass of the block walk: `LOAD`, `EXPAND`, `INIT`, 80 rounds, `FOLD` (R140). -/
def blockPass (s : State) : Result State :=
  andThen (microLoad s) fun s => .next (microFold (rounds 80 (microInit (microExpand s))))

/-- The passes of `k` blocks, in increasing order (R142). -/
def walkBlocks : Nat → State → Result State
  | 0, s => .next s
  | k + 1, s => andThen (blockPass s) (walkBlocks k)

/-- The end of a `FINALIZE`: `PHASE <- DONE`, the response with the digest (R140, R144), and the datapath
unspecified again (R19 to R21). -/
def finishFinalize (s : State) : State :=
  respondOk (some (digestOf s.h)) { forgetTransient s with phase := .done }

/-- `FINALIZE` (R140, R141): one atomic step to the host. -/
def execFinalize (s : State) : Result State :=
  if s.phase ≠ .accum then .next (raise .stateError s)
  else if nchunks s = 0 then .next (raise .emptyInput s)
  else
    andThen (microPad (latchLength s)) fun s =>
    andThen (walkBlocks s.tr.nb s) fun s =>
    .next (finishFinalize s)

/-- Where a `FINALIZE` in progress stands after a micro-step. -/
inductive Progress where
  | running (s : State)
  | answered (s : State)
  deriving DecidableEq, Repr

/-- One transition of the table of R143. -/
def microStep (s : State) : Result Progress :=
  match s.tr.fstep with
  | .pad => andThen (microPad s) fun s => .next (.running s)
  | .load => andThen (microLoad s) fun s => .next (.running s)
  | .expand => .next (.running (microExpand s))
  | .init => .next (.running (microInit s))
  | .round => .next (.running (microRound s))
  | .fold =>
    if moreBlocks s then .next (.running (microFold s))
    else .next (.answered (finishFinalize (microFold s)))

/-- At most `k` transitions, stopping when the command is answered. -/
def microRun : Nat → State → Result Progress
  | 0, s => .next (.running s)
  | k + 1, s =>
    andThen (microStep s) fun p =>
      match p with
      | .running s => microRun k s
      | .answered s => .next (.answered s)

end Sys2Proof.Machine
end

