-- ==== Sys2Proof/Machine/Lifecycle.lean ====
section
/-! DEFINITION. The lifecycle commands `CREATE` and `DESTROY` (file 40_lifecycle_create_destroy.md). -/

namespace Sys2Proof.Machine

/-- The instance `CREATE` makes: the constants of R12, no chunk, `PHASE = ACCUM` (R80). -/
def freshInstance (s : State) : State :=
  { s with h := initialHash, mem := [], lens := [], phase := .accum }

/-- `CREATE` (R80, R81). -/
def execCreate (s : State) : Result State :=
  if s.phase = .absent then .next (respondOk none (freshInstance s))
  else .next (raise .stateError s)

/-- `DESTROY` (R82). -/
def execDestroy (s : State) : Result State :=
  if s.phase = .absent then .next (raise .stateError s)
  else .next (respondOk none (releaseInstance s))

end Sys2Proof.Machine
end

