-- ==== Sys2Proof/Machine/Dispatch.lean ====
section
/-! DEFINITION. One arm for each command. -/

namespace Sys2Proof.Machine

def exec (i : Instr) (s : State) : Host.Outcome State Fault Refusal :=
  match i with
  | .create => Sys2Proof.Machine.execCreate s
  | .append n d => Sys2Proof.Machine.execAppend n d s
  | .finalize => Sys2Proof.Machine.execFinalize s
  | .destroy => Sys2Proof.Machine.execDestroy s

end Sys2Proof.Machine
end

