-- ==== Sys2Proof/WellFormed.lean ====
section
/-! DEFINITION. Which terms of `Instr` are commands of the engine: the operand ranges of R60. -/

namespace Sys2Proof

/-- `n` can be spelled in the length field: `0 ≤ n < 2^LEN_W`, `LEN_W = 8` (R60, R63). -/
def lengthFits (n : Nat) : Bool := decide (n < 2 ^ 8)

/-- `d` is the whole payload `DATA[0..63]`: 64 bytes (R60, R64). -/
def payloadFits (d : List Byte) : Bool := decide (d.length = 64)

/-- The operands of a command are in the ranges R60 gives them. -/
def Instr.wf : Instr → Bool
  | .create => true
  | .append n d => lengthFits n && payloadFits d
  | .finalize => true
  | .destroy => true

end Sys2Proof
end

