-- ==== Sys2Proof/Decode.lean ====
section
/-! DEFINITION. Reading a presented command (R61 to R67), total on every 16-bit word and rejecting by
name, and the encoder written from the same table (R62). -/

namespace Sys2Proof

/-- `CMD[15:8]`, the opcode field `op` (R61). -/
def opField (cmd : BitVec 16) : BitVec 8 := cmd.extractLsb' 8 8

/-- `CMD[7:0]`, the length field `len` (R61). -/
def lenField (cmd : BitVec 16) : BitVec 8 := cmd.extractLsb' 0 8

/-- The opcode values of R62. -/
def opCreate : BitVec 8 := 0x01#8
def opAppend : BitVec 8 := 0x02#8
def opFinalize : BitVec 8 := 0x03#8
def opDestroy : BitVec 8 := 0x04#8

/-- Why a word is no command (R67). -/
inductive IllegalWord where
  /-- The opcode is none of `0x01` to `0x04`. -/
  | opcode
  /-- `CREATE`, `FINALIZE` or `DESTROY` with a length field that is not 0. -/
  | reservedLength
  deriving DecidableEq, Repr

/-- The result of decoding: `Command ∪ {Illegal}` (R66). -/
inductive Decoded where
  | command (i : Instr)
  | illegal (why : IllegalWord)
  deriving DecidableEq, Repr

/-- The command `i` when the reserved length field is 0, else `Illegal` (R61, R66). -/
def ifReservedZero (len : BitVec 8) (i : Instr) : Decoded :=
  if len = 0#8 then .command i else .illegal .reservedLength

/-- The decoder of R66. -/
def decode (p : PortInput) : Decoded :=
  if opField p.cmd = opAppend then .command (.append (lenField p.cmd).toNat p.data.toList)
  else if opField p.cmd = opCreate then ifReservedZero (lenField p.cmd) .create
  else if opField p.cmd = opFinalize then ifReservedZero (lenField p.cmd) .finalize
  else if opField p.cmd = opDestroy then ifReservedZero (lenField p.cmd) .destroy
  else .illegal .opcode

/-- A command word from its two fields (R61). -/
def commandWord (op : BitVec 8) (len : BitVec 8) : BitVec 16 := op ++ len

/-- The 64 payload lanes that carry a byte list, zeros after its end (R64). -/
def payloadLanes (d : List Byte) : Vector Byte 64 :=
  ⟨((List.range 64).map fun j => d.getD j 0#8).toArray, by simp⟩

/-- The encoder, from the table of R62. A command without payload presents zeros on the lanes, which
R61 makes meaningless there (log entry 9, DESIGN CHOICE, safe). -/
def encode : Instr → PortInput
  | .create => ⟨commandWord opCreate 0#8, payloadLanes []⟩
  | .append n d => ⟨commandWord opAppend (BitVec.ofNat 8 n), payloadLanes d⟩
  | .finalize => ⟨commandWord opFinalize 0#8, payloadLanes []⟩
  | .destroy => ⟨commandWord opDestroy 0#8, payloadLanes []⟩

/-- The payload carried on a 512-bit bus: `DATA[j] = DATA_BUS[511−8j : 504−8j]` (R65). -/
def busLanes (bus : BitVec 512) : Vector Byte 64 :=
  ⟨((List.range 64).map fun j => bus.extractLsb' (504 - 8 * j) 8).toArray, by simp⟩

/-- One row of the match and mask table of R62. -/
structure OpcodeRow where
  mnemonic  : String
  matchWord : BitVec 16
  mask      : BitVec 16
  deriving DecidableEq, Repr

/-- R62's table in match and mask form. -/
def opcodeRows : List OpcodeRow :=
  [ ⟨"CREATE", 0x0100#16, 0xFFFF#16⟩, ⟨"APPEND", 0x0200#16, 0xFF00#16⟩,
    ⟨"FINALIZE", 0x0300#16, 0xFFFF#16⟩, ⟨"DESTROY", 0x0400#16, 0xFFFF#16⟩ ]

/-- A word belongs to a row: its masked bits are the row's. -/
def OpcodeRow.holds (r : OpcodeRow) (cmd : BitVec 16) : Bool := cmd &&& r.mask == r.matchWord

/-- The row's name of a command. -/
def Instr.mnemonic : Instr → String
  | .create => "CREATE"
  | .append _ _ => "APPEND"
  | .finalize => "FINALIZE"
  | .destroy => "DESTROY"

/-- The presented command whose bits are the number `w`: `CMD` in bits 15 to 0 and `DATA[j]` in bits
`16+8j+7` to `16+8j`, every bit at `nbits` and above being 0 (log entry 16, DESIGN CHOICE, safe). -/
def wordInput (nbits w : Nat) : PortInput :=
  ⟨BitVec.ofNat 16 (w % 2 ^ nbits),
   ⟨((List.range 64).map fun j => BitVec.ofNat 8 ((w % 2 ^ nbits) >>> (16 + 8 * j))).toArray, by simp⟩⟩

/-- The command the decoder reads from a word numbered as the opcode table numbers it. -/
def decodeTableWord (nbits w : Nat) : Option Instr :=
  match decode (wordInput nbits w) with
  | .command i => some i
  | .illegal _ => none

end Sys2Proof
end

