-- ==== Sys2Proof/Machine/HostPort.lean ====
section
/-! DEFINITION. What the host does and how it is taken: the next event, presenting a command, and the
pseudo-command `hash` (R71). -/

namespace Sys2Proof.Machine

/-- The state with the events that follow the one being taken. -/
def withInputs (s : State) (rest : List HostEvent) : State := { s with inputs := rest }

/-- Present a command before everything else the host does. -/
def present (s : State) (p : PortInput) : State := { s with inputs := .command p :: s.inputs }

/-- The event that presents a command. -/
def issue (i : Instr) : HostEvent := .command (encode i)

/-- The `APPEND` that carries the bytes of a list, `n` its length, on 64 lanes (R64). The unused lanes
`DATA[n..63]`, which R64 leaves open ("whatever they hold"), are zeros here (log entry 17, DESIGN CHOICE, safe). -/
def appendOf (b : List Byte) : Instr := .append b.length (b ++ List.replicate (64 - b.length) 0#8)

/-- A byte string in payloads of 64 bytes and one shorter payload for the rest, if any; at most `k` of
them (R71). -/
def splitPayloads : Nat → List Byte → List (List Byte)
  | 0, _ => []
  | k + 1, b => if b = [] then [] else b.take 64 :: splitPayloads k (b.drop 64)

/-- The pseudo-command `hash B` (R71): `create`, the `append`s, `finalize`, `destroy`. What the unused lanes of its
last `append` hold is the model's choice (log entry 17, DESIGN CHOICE, safe). -/
def hashScript (b : List Byte) : List Instr :=
  .create :: (splitPayloads b.length b).map appendOf ++ [.finalize, .destroy]

end Sys2Proof.Machine
end

