-- ==== Sys2Proof/Machine/Step.lean ====
section
/-! DEFINITION. One step: the engine takes the host's next event. -/

namespace Sys2Proof.Machine

/-- One presented command: decode, then perform it or raise `IllegalCommand` (R66, R67). -/
def stepCommand (p : PortInput) (s : State) : Host.Outcome State Fault Refusal :=
  match decode p with
  | .command i => exec i s
  | .illegal _ => .next (raiseIllegalCommand s)

/-- The step. With nothing presented the engine is idle and keeps its state (R177). A command is one atomic
step (R141); `RST` during a command abandons it without a response (R185; log entry 12, DEDUCED,
safe). -/
def step (s : State) : Host.Outcome State Fault Refusal :=
  match s.inputs with
  | [] => .next s
  | .command p :: rest => stepCommand p (withInputs s rest)
  | .readDigest :: rest => readDigestPort (withInputs s rest)
  | .reset :: rest => .next (applyReset (withInputs s rest))
  | .resetDuring p :: rest => .next (abandonCommand p (withInputs s rest))

/-- `s` with the command of the opcode table's word presented next (log entry 7, DESIGN CHOICE,
safe). -/
def State.withFetchWord (s : State) (nbits w : Nat) : State := present s (wordInput nbits w)

end Sys2Proof.Machine
end

