-- ==== Sys2Proof/Machine/Digest.lean ====
section
/-! DEFINITION. The functions the rules define without the machine: the message of an instance (R17), the
padded message (R111), the compression of one block (R128), and `SHA1(B)` (R149). -/

namespace Sys2Proof.Machine

/-- The first `l` data bytes of chunk `k`. -/
def chunkData (s : State) (k l : Nat) : List Byte := (List.range l).map (chunkByte s k)

/-- `MSG`: the occupied bytes of every chunk, in sequence order (R17). -/
def message (s : State) : List Byte :=
  (List.range (nchunks s)).flatMap fun k => chunkData s k (chunkLen s k)

/-- All data bytes of all chunks, in order. -/
def storedBytes (s : State) : List Byte :=
  (List.range (nchunks s)).flatMap fun k => chunkData s k chunkCap

/-- `z = (55 − |B|) mod 64`, the zeros between the marker and the length field (R111). -/
def zeroFill (len : Nat) : Nat := (((55 : Int) - len) % 64).toNat

/-- `PM = B ‖ 0x80 ‖ 0x00^z ‖ be64(8·|B|)` (R111, R149). -/
def padMessage (b : List Byte) : List Byte :=
  b ++ [0x80#8] ++ List.replicate (zeroFill b.length) 0#8 ++ be64 (BitVec.ofNat 64 (8 * b.length))

/-- `NB = ⌊(|B| + 8)/64⌋ + 1` (R111). -/
def blockCount (len : Nat) : Nat := (len + 8) / 64 + 1

/-- `k` blocks of 64 bytes. -/
def splitBlocks : Nat → List Byte → List (List Byte)
  | 0, _ => []
  | k + 1, b => b.take 64 :: splitBlocks k (b.drop 64)

/-- The schedule of one block (R115, R116). -/
def schedule (m : List Byte) : Vector Word 80 := expandWords (loadWords m (Vector.replicate 80 0#32))

/-- `ROUND` with `T = 0..79` on the working registers (R123). -/
def eightyRounds (w : Vector Word 80) (a : Words5) : Words5 :=
  (List.finRange 80).foldl (fun a t => roundWork t w a) a

/-- `compress(h, m)` (R128). -/
def compress (h : Words5) (m : List Byte) : Words5 := foldWork h (eightyRounds (schedule m) h)

/-- `H_NB` for a list of blocks (R142, R149). -/
def compressAll (h : Words5) (blocks : List (List Byte)) : Words5 := blocks.foldl compress h

/-- `SHA1(B)` (R149). -/
def sha1 (b : List Byte) : Words5 :=
  compressAll initialHash (splitBlocks (blockCount b.length) (padMessage b))

end Sys2Proof.Machine
end

