-- ==== Sys2Proof/Safety.lean ====
section
/-! DEFINITION. What a safe state and a safe run are, in the terms the statements use. -/

namespace Sys2Proof.Machine

/-- The invariants I-a to I-d of the chunk sequence while `PHASE = ACCUM` (R16). -/
structure ChunksPacked (s : State) : Prop where
  /-- I-a and I-d: `1 ≤ len ≤ 64`. -/
  lenBounds : ∀ k < nchunks s, 1 ≤ chunkLen s k ∧ chunkLen s k ≤ 64
  /-- I-b: every chunk before the tail is full. -/
  interiorFull : ∀ k < nchunks s - 1, chunkLen s k = 64
  /-- I-c: the unused bytes are zero. -/
  unusedZero : ∀ k < nchunks s, ∀ o < 64, chunkLen s k ≤ o → chunkByte s k o = 0#8

/-- The chunk memory holds at most `room` chunks (R52). -/
def fitsCapacity (c : Config) (room : Nat) : Prop := ∀ m ∈ c.maxChunks, room ≤ m

/-- What every step keeps: the canonical memory inside the existing chunks, and what R11, R13, R16, R52 and
R98 say of each phase. -/
structure Inv (s : State) : Prop where
  cfgWf : s.cfg.wf = true
  memWf : Memory.wf s.mem = true
  /-- No byte is listed where no chunk exists. -/
  memInside : ∀ c ∈ s.mem, c.1 < 64 * nchunks s
  /-- In `ABSENT` no chunk exists (R29). -/
  absentEmpty : s.phase = .absent → s.lens = []
  /-- In `ACCUM` the chunks are packed (R16). -/
  accumPacked : s.phase = .accum → ChunksPacked s
  /-- In `ACCUM` `H` is the five constants (R13). -/
  accumHash : s.phase = .accum → s.h = initialHash
  /-- In `ACCUM` the message is short enough for the length field (R96). -/
  accumLength : s.phase = .accum → totalBytes s ≤ 2 ^ 61 - 1
  /-- In `ACCUM` one chunk is held back for the padder (R52). -/
  accumRoom : s.phase = .accum → fitsCapacity s.cfg (nchunks s + 1)
  /-- In `DONE` at least one chunk was hashed, and the capacity was kept (R52, R140). -/
  doneChunks : s.phase = .done → 1 ≤ nchunks s ∧ fitsCapacity s.cfg (nchunks s)

/-- In `DONE` chunk memory holds a padded non-empty message and `H` is its digest (R111, R149). -/
def DigestMatchesMemory (s : State) : Prop :=
  s.phase = .done → ∃ b : List Byte, b ≠ [] ∧ storedBytes s = padMessage b ∧ s.h = sha1 b

/-- `t` is `s` with the response `r` given and nothing else changed, but for the fault mark where the status
sets it (R170, R178). -/
def OnlyAnswers (r : Response) (s t : State) : Prop :=
  t = { s with
    port := some r
    observed := s.observed ++ [r]
    faultMark := s.faultMark || r.status.marksRun }

/-- What belongs to the run and not to the engine, and the configuration, is the same, but for one more
response `r`. -/
def AnswersInRun (r : Response) (s t : State) : Prop :=
  t.port = some r ∧ t.observed = s.observed ++ [r] ∧ t.inputs = s.inputs ∧ t.hostRead = s.hostRead ∧
    t.faultMark = s.faultMark ∧ t.cfg = s.cfg

/-- The command is legal in the phase (the table of R84). -/
def legalIn (p : Phase) (i : Instr) : Bool :=
  match p, i with
  | .absent, .create => true
  | .accum, .append _ _ => true
  | .accum, .finalize => true
  | .accum, .destroy => true
  | .done, .destroy => true
  | _, _ => false

/-- A run that carries no fault mark (R178, R196). -/
def unmarked (s : State) : Prop := s.faultMark = false

/-- Commands performed one after another, each answered before the next (R53). -/
def runCommands : List Instr → State → Host.Outcome State Fault Refusal
  | [], s => .next s
  | i :: rest, s => andThen (exec i s) (runCommands rest)

/-- `k` steps, each taking the host's next event; a stop of one is the stop of the run. -/
def runSteps : Nat → State → Host.Outcome State Fault Refusal
  | 0, s => .next s
  | k + 1, s => andThen (step s) (runSteps k)

end Sys2Proof.Machine
end

