-- ==== Sys2Proof/Certificates/Slice0/Obligations.lean ====
section
/-! DEFINITION. The statements of this row. They come from the numbered rules of spec/; a clause that rests on a
choice of the model says so and names its log entry. -/

open Sys2Proof Sys2Proof.Machine

/-! ### Encoding (30_encoding.md) -/

/-- Words written out from the table of R62 decode to the commands they stand for; the words of
95_test_vectors.md section 5.1. -/
def Obligations.OpcodeWordsDecode : Prop :=
  ∀ d : Vector Byte 64,
    decode ⟨0x0100#16, d⟩ = .command .create ∧
    decode ⟨0x0200#16, d⟩ = .command (.append 0 d.toList) ∧
    decode ⟨0x0205#16, d⟩ = .command (.append 5 d.toList) ∧
    decode ⟨0x0241#16, d⟩ = .command (.append 65 d.toList) ∧
    decode ⟨0x02FF#16, d⟩ = .command (.append 255 d.toList) ∧
    decode ⟨0x0300#16, d⟩ = .command .finalize ∧
    decode ⟨0x0400#16, d⟩ = .command .destroy ∧
    decode ⟨0x0000#16, d⟩ = .illegal .opcode ∧
    decode ⟨0x0101#16, d⟩ = .illegal .reservedLength ∧
    decode ⟨0x0440#16, d⟩ = .illegal .reservedLength ∧
    decode ⟨0x0500#16, d⟩ = .illegal .opcode ∧
    decode ⟨0x8200#16, d⟩ = .illegal .opcode

/-- R66: decoding follows its pseudocode, on every word, with `op` and `len` computed as numbers. -/
def Obligations.DecodeFollowsThePseudocode : Prop :=
  ∀ p : PortInput,
    (p.cmd.toNat / 256 = 2 → decode p = .command (.append (p.cmd.toNat % 256) p.data.toList)) ∧
    (p.cmd.toNat / 256 = 1 ∧ p.cmd.toNat % 256 = 0 → decode p = .command .create) ∧
    (p.cmd.toNat / 256 = 3 ∧ p.cmd.toNat % 256 = 0 → decode p = .command .finalize) ∧
    (p.cmd.toNat / 256 = 4 ∧ p.cmd.toNat % 256 = 0 → decode p = .command .destroy) ∧
    (p.cmd.toNat / 256 ≠ 2 ∧ ¬ (p.cmd.toNat / 256 = 1 ∧ p.cmd.toNat % 256 = 0) ∧
        ¬ (p.cmd.toNat / 256 = 3 ∧ p.cmd.toNat % 256 = 0) ∧ ¬ (p.cmd.toNat / 256 = 4 ∧ p.cmd.toNat % 256 = 0) →
      ∃ why, decode p = .illegal why)

/-- R62: the opcode values, and the match and mask form over the 16-bit word; the all-zero word is no command. -/
def Obligations.DecodeMatchesTheMaskTable : Prop :=
  ∀ p : PortInput,
    (p.cmd &&& 0xFFFF#16 = 0x0100#16 ↔ decode p = .command .create) ∧
    (p.cmd &&& 0xFF00#16 = 0x0200#16 ↔ ∃ n d, decode p = .command (.append n d)) ∧
    (p.cmd &&& 0xFFFF#16 = 0x0300#16 ↔ decode p = .command .finalize) ∧
    (p.cmd &&& 0xFFFF#16 = 0x0400#16 ↔ decode p = .command .destroy) ∧
    (p.cmd = 0x0000#16 → ∃ why, decode p = .illegal why)

/-- Decoding the encoding of a well-formed command gives it back, with every operand. -/
def Obligations.DecodeInvertsEncode : Prop :=
  ∀ i : Instr, i.wf = true → decode (encode i) = .command i

/-- What is decoded is well-formed, and encoding it gives the presented word back, with the payload where the
command has one. -/
def Obligations.EncodeInvertsDecode : Prop :=
  ∀ (p : PortInput) (i : Instr), decode p = .command i →
    i.wf = true ∧ (encode i).cmd = p.cmd ∧ (∀ n d, i = .append n d → encode i = p)

/-- R65: the lanes of a payload bus are the message bytes in order, and a full payload that lands at offset 0 of a
chunk gives the schedule words of the rule, taken through `APPEND` and `LOAD`. -/
def Obligations.PayloadBusGivesScheduleWords : Prop :=
  ∀ bus : BitVec 512,
    (∀ (j : Nat) (h : j < 64), (busLanes bus)[j] = bus.extractLsb' (504 - 8 * j) 8) ∧
    ∀ s : State, Inv s → s.phase = .accum → totalBytes s % 64 = 0 → totalBytes s + 64 ≤ 2 ^ 61 - 1 →
      wouldExceedCapacity s 64 = false →
        ∃ t u, exec (.append 64 (busLanes bus).toList) s = .next t ∧
          message t = message s ++ (busLanes bus).toList ∧
          microLoad { t with tr := { t.tr with blk := nchunks s } } = .next u ∧
          ∀ i : Fin 80, i.val < 16 → u.tr.w[i] = bus.extractLsb' (480 - 32 * i.val) 32

/-! ### The step -/

/-- A step performs the command the decoder reads, with the host's later events left in order; and the word the
host's interface places is the very next one performed. -/
def Obligations.StepPerformsTheDecodedCommand : Prop :=
  (∀ (s : State) (p : PortInput) (rest : List HostEvent) (i : Instr),
    s.inputs = .command p :: rest → decode p = .command i → step s = exec i { s with inputs := rest }) ∧
  (∀ (s : State) (nbits w : Nat) (i : Instr),
    decodeTableWord nbits w = some i → step (s.withFetchWord nbits w) = exec i s)

/-- R164: a word that is no command raises `IllegalCommand`; nothing changes and the run is marked. -/
def Obligations.IllegalWordChangesNothing : Prop :=
  ∀ (s : State) (p : PortInput) (rest : List HostEvent) (why : IllegalWord),
    s.inputs = .command p :: rest → decode p = .illegal why →
      ∃ t, step s = .next t ∧ OnlyAnswers ⟨.illegalCommand, none⟩ { s with inputs := rest } t ∧
        t.faultMark = true

/-- Between commands the engine is idle (60_exceptions.md section 5). R177 promises that `PHASE`, `H` and `CHUNKS` are
kept; that the rest of the state is kept too, and that with no event a step is taken at all, is the model's choice:
the response on the port stays (log entry 14), `W`, `A`, `TEMP` and the control state, unspecified between commands,
stay as they were (log entry 3), and a step without an event changes nothing (log entry 7), nor the fields that record
the run (log entry 15). -/
def Obligations.IdleEngineKeepsItsState : Prop :=
  ∀ s : State, s.inputs = [] → step s = .next s

/-! ### Lifecycle (40_lifecycle_create_destroy.md) -/

/-- What `CREATE` makes, from any earlier state of the block; its two errors; its word
(40_lifecycle_create_destroy.md section 1). R80 says of `W`, `A`, `TEMP` and the control state only that they stay
unspecified: that `CREATE` leaves them, and the counter of free values, as they were is the model's choice (log
entry 3), stated in the clauses on `t.tr` and `t.freeIdx`. -/
def Obligations.CreateMakesAFreshInstance : Prop :=
  (∀ s : State, s.phase = .absent →
    ∃ t, exec .create s = .next t ∧ t.phase = .accum ∧
      t.h = ⟨0x67452301#32, 0xEFCDAB89#32, 0x98BADCFE#32, 0x10325476#32, 0xC3D2E1F0#32⟩ ∧
      t.lens = [] ∧ t.mem = [] ∧ nchunks t = 0 ∧ t.tr = s.tr ∧ t.freeIdx = s.freeIdx ∧
      AnswersInRun ⟨.ok, none⟩ s t) ∧
  (∀ s : State, s.phase ≠ .absent →
    ∃ t, exec .create s = .next t ∧ OnlyAnswers ⟨.stateError, none⟩ s t) ∧
  (∀ d : Vector Byte 64, decode ⟨0x0100#16, d⟩ = .command .create) ∧
  (∀ (s : State) (p : PortInput) (rest : List HostEvent), s.inputs = .command p :: rest →
    p.cmd.toNat / 256 = 1 → p.cmd.toNat % 256 ≠ 0 →
      ∃ t, step s = .next t ∧ OnlyAnswers ⟨.illegalCommand, none⟩ { s with inputs := rest } t)

/-- R81: a `CREATE` while an instance exists leaves it untouched; `DESTROY` then `CREATE` starts a new one. -/
def Obligations.SecondCreateIsRefused : Prop :=
  ∀ s : State, s.phase ≠ .absent →
    (∃ t, exec .create s = .next t ∧ OnlyAnswers ⟨.stateError, none⟩ s t) ∧
    ∃ u v, exec .destroy s = .next u ∧ u.port = some ⟨.ok, none⟩ ∧
      exec .create u = .next v ∧ v.port = some ⟨.ok, none⟩ ∧ v.phase = .accum ∧ nchunks v = 0

/-- R82: what `DESTROY` leaves, its two errors, its word. `H` and the datapath are free values afterwards, of
which nothing is said. -/
def Obligations.DestroyReleasesTheInstance : Prop :=
  (∀ s : State, s.phase ≠ .absent →
    ∃ t, exec .destroy s = .next t ∧ t.phase = .absent ∧ nchunks t = 0 ∧
      digestPort t = none ∧ AnswersInRun ⟨.ok, none⟩ s t) ∧
  (∀ s : State, s.phase = .absent →
    ∃ t, exec .destroy s = .next t ∧ OnlyAnswers ⟨.stateError, none⟩ s t) ∧
  (∀ d : Vector Byte 64, decode ⟨0x0400#16, d⟩ = .command .destroy) ∧
  (∀ (s : State) (p : PortInput) (rest : List HostEvent), s.inputs = .command p :: rest →
    p.cmd.toNat / 256 = 4 → p.cmd.toNat % 256 ≠ 0 →
      ∃ t, step s = .next t ∧ OnlyAnswers ⟨.illegalCommand, none⟩ { s with inputs := rest } t)

/-- R83: the phase transitions are exactly those of the table, and an error leaves `PHASE` as it was. -/
def Obligations.PhaseFollowsTheTable : Prop :=
  (∀ (s : State) (i : Instr) (t : State), exec i s = .next t →
    (s.phase = .absent → i = .create → t.phase = .accum) ∧
    (s.phase = .accum → ∀ n d, i = .append n d → t.phase = .accum) ∧
    (s.phase = .accum → i = .finalize → 1 ≤ nchunks s → t.phase = .done) ∧
    (s.phase = .accum → i = .finalize → nchunks s = 0 →
      t.phase = .accum ∧ t.port = some ⟨.emptyInput, none⟩) ∧
    (s.phase = .accum ∨ s.phase = .done → i = .destroy → t.phase = .absent) ∧
    (legalIn s.phase i = false → t.phase = s.phase ∧ t.port = some ⟨.stateError, none⟩) ∧
    (∀ e dg, t.port = some ⟨e, dg⟩ → e ≠ .ok → t.phase = s.phase)) ∧
  (∀ (s : State) (p : PortInput) (rest : List HostEvent) (why : IllegalWord) (t : State),
    s.inputs = .command p :: rest → decode p = .illegal why → step s = .next t →
      t.phase = s.phase ∧ t.port = some ⟨.illegalCommand, none⟩) ∧
  (∀ (s : State) (rest : List HostEvent) (t : State),
    s.inputs = .reset :: rest → step s = .next t → t.phase = .absent)

/-- R84, R165: the commands that are legal in no other way than by the table raise `StateError`, change nothing
and mark the run; a legal command never raises it. -/
def Obligations.CommandsOutsideTheirPhaseAreRefused : Prop :=
  ∀ (s : State) (i : Instr),
    ((s.phase = .absent ∧ i = .create) ∨ (s.phase = .accum ∧ i ≠ .create) ∨ (s.phase = .done ∧ i = .destroy) →
      ∀ t dg, exec i s = .next t → t.port ≠ some ⟨.stateError, dg⟩) ∧
    (¬ ((s.phase = .absent ∧ i = .create) ∨ (s.phase = .accum ∧ i ≠ .create) ∨
          (s.phase = .done ∧ i = .destroy)) →
      ∃ t, exec i s = .next t ∧ OnlyAnswers ⟨.stateError, none⟩ s t ∧ t.faultMark = true)

/-! ### Chunk memory (20_memory.md) -/

/-- R41: the two accesses of chunk memory inside their bounds, byte by byte, and the fault outside. -/
def Obligations.MemoryAccessStaysInOneChunk : Prop :=
  ∀ (s : State) (k o n : Nat),
    (k < nchunks s ∧ o + n ≤ 64 →
      (∃ v, memRead s k o n = .next v ∧ v.length = n ∧ ∀ j < n, v.getD j 0#8 = chunkByte s k (o + j)) ∧
      ∀ v : List Byte, v.length = n → Memory.wf s.mem = true →
        ∃ t, memWrite s k o n v = .next t ∧ t.lens = s.lens ∧ t = { s with mem := t.mem } ∧
          Memory.wf t.mem = true ∧
          ∀ k' o', o' < 64 → chunkByte t k' o' =
            if k' = k ∧ o ≤ o' ∧ o' < o + n then v.getD (o' - o) 0#8 else chunkByte s k' o') ∧
    (¬ (k < nchunks s ∧ o + n ≤ 64) →
      memRead s k o n = .fault .chunkAccess ∧ ∀ v, memWrite s k o n v = .fault .chunkAccess)

/-! ### APPEND (41_chunkbuffer_append.md) -/

/-- R162: `APPEND` of more than 64 bytes is rejected whole, and nothing else raises `OversizedChunk`. -/
def Obligations.OversizedAppendIsRejectedWhole : Prop :=
  (∀ (s : State) (n : Nat) (d : List Byte), s.phase = .accum → 64 < n →
    ∃ t, exec (.append n d) s = .next t ∧ OnlyAnswers ⟨.oversizedChunk, none⟩ s t ∧
      t.faultMark = s.faultMark) ∧
  (∀ (s : State) (i : Instr) (t : State) (dg : Option (BitVec 160)),
    exec i s = .next t → t.port = some ⟨.oversizedChunk, dg⟩ → ∃ n d, i = .append n d ∧ 64 < n)

/-- R166: the `APPEND` that would take the message past 2^61 − 1 bytes is refused, changes nothing and marks the
run, and nothing else raises `LengthOverflow`. -/
def Obligations.OverlongMessageIsRefused : Prop :=
  (∀ (s : State) (n : Nat) (d : List Byte), s.phase = .accum → n ≤ 64 → 2 ^ 61 - 1 < totalBytes s + n →
    ∃ t, exec (.append n d) s = .next t ∧ OnlyAnswers ⟨.lengthOverflow, none⟩ s t ∧ t.faultMark = true) ∧
  (∀ (s : State) (i : Instr) (t : State) (dg : Option (BitVec 160)),
    exec i s = .next t → t.port = some ⟨.lengthOverflow, dg⟩ →
      ∃ n d, i = .append n d ∧ 2 ^ 61 - 1 < totalBytes s + n)

/-- R167: with `MAX_CHUNKS = some M`, the `APPEND` that needs more than `M − 1` chunks, that is more than
`64(M − 1)` bytes, is refused, changes nothing and marks the run, and nothing else raises `BufferFull`. -/
def Obligations.FullBufferIsRefused : Prop :=
  (∀ (s : State) (n : Nat) (d : List Byte) (m : Nat), s.phase = .accum → n ≤ 64 →
    totalBytes s + n ≤ 2 ^ 61 - 1 → s.cfg.maxChunks = some m → 64 * m < totalBytes s + n + 64 →
      ∃ t, exec (.append n d) s = .next t ∧ OnlyAnswers ⟨.bufferFull, none⟩ s t ∧ t.faultMark = true) ∧
  (∀ (s : State) (i : Instr) (t : State) (dg : Option (BitVec 160)),
    exec i s = .next t → t.port = some ⟨.bufferFull, dg⟩ →
      ∃ n d m, i = .append n d ∧ s.cfg.maxChunks = some m ∧ 64 * m < totalBytes s + n + 64)

/-- R169: exactly one status is reported, the first that applies in the rule's order. -/
def Obligations.ErrorsAreReportedByPriority : Prop :=
  (∀ (s : State) (p : PortInput) (rest : List HostEvent) (why : IllegalWord),
    s.inputs = .command p :: rest → decode p = .illegal why →
      ∃ t, step s = .next t ∧ t.port = some ⟨.illegalCommand, none⟩) ∧
  (∀ (s : State) (n : Nat) (d : List Byte) (t : State), exec (.append n d) s = .next t →
    t.port = some ⟨if s.phase ≠ .accum then .stateError else if 64 < n then .oversizedChunk
      else if 2 ^ 61 - 1 < totalBytes s + n then .lengthOverflow
      else if wouldExceedCapacity s n then .bufferFull else .ok, none⟩) ∧
  (∀ (s t : State), exec .finalize s = .next t →
    t.port.map (·.status) = some (if s.phase ≠ .accum then .stateError
      else if nchunks s = 0 then .emptyInput else .ok)) ∧
  (∀ (s t : State), exec .create s = .next t →
    t.port = some ⟨if s.phase ≠ .absent then .stateError else .ok, none⟩) ∧
  (∀ (s t : State), exec .destroy s = .next t →
    t.port = some ⟨if s.phase = .absent then .stateError else .ok, none⟩)

/-- R94: an `APPEND` of no bytes changes nothing, and does not count as data for `FINALIZE`. -/
def Obligations.ZeroLengthAppendChangesNothing : Prop :=
  ∀ (s : State) (d : List Byte), s.phase = .accum → totalBytes s ≤ 2 ^ 61 - 1 →
    wouldExceedCapacity s 0 = false →
      ∃ t, exec (.append 0 d) s = .next t ∧ OnlyAnswers ⟨.ok, none⟩ s t ∧ t.faultMark = s.faultMark ∧
        (nchunks s = 0 → ∃ u, exec .finalize t = .next u ∧ u.port = some ⟨.emptyInput, none⟩)

/-- R95: after a legal `APPEND(n, d)`, `MSG' = MSG ‖ d[0..n−1]`, and the chunk invariants hold again. -/
def Obligations.AppendExtendsTheMessage : Prop :=
  ∀ (s : State) (n : Nat) (d : List Byte), Inv s → s.phase = .accum → (Instr.append n d).wf = true → n ≤ 64 →
    totalBytes s + n ≤ 2 ^ 61 - 1 → wouldExceedCapacity s n = false →
      ∃ t, exec (.append n d) s = .next t ∧ t.port = some ⟨.ok, none⟩ ∧
        message t = message s ++ d.take n ∧ ChunksPacked t

/-- The frame of `APPEND`: byte `j` of the payload goes to the linear byte number `TOTAL_BYTES + j`, every other
byte of chunk memory, `H`, the datapath and the run are as before. -/
def Obligations.AppendStoresOnlyAtTheEnd : Prop :=
  ∀ (s : State) (n : Nat) (d : List Byte), Inv s → s.phase = .accum → (Instr.append n d).wf = true → n ≤ 64 →
    totalBytes s + n ≤ 2 ^ 61 - 1 → wouldExceedCapacity s n = false →
      ∃ t, exec (.append n d) s = .next t ∧
        (∀ j < n, Memory.readByte t.mem (totalBytes s + j) = d.getD j 0#8) ∧
        (∀ a, a < totalBytes s ∨ totalBytes s + n ≤ a → Memory.readByte t.mem a = Memory.readByte s.mem a) ∧
        totalBytes t = totalBytes s + n ∧ nchunks t = (totalBytes s + n + 63) / 64 ∧
        t.phase = .accum ∧ t.h = s.h ∧ t.tr = s.tr ∧ t.freeIdx = s.freeIdx ∧ AnswersInRun ⟨.ok, none⟩ s t

/-- R97: `APPEND` neither writes nor reads `H`, `W`, `A`, `TEMP` or the control state. -/
def Obligations.AppendNeitherReadsNorWritesHashState : Prop :=
  ∀ (s : State) (n : Nat) (d : List Byte) (t : State), exec (.append n d) s = .next t →
    t.h = s.h ∧ t.tr = s.tr ∧
    ∀ (h : Words5) (tr : Transient),
      exec (.append n d) { s with h := h, tr := tr } = .next { t with h := h, tr := tr }

/-- R64: only `d[0..n−1]` is used when `n ≤ 64`, no payload byte when `n > 64`, and the unused capacity reads
zero. -/
def Obligations.PayloadBeyondTheLengthIsIgnored : Prop :=
  (∀ (s : State) (n : Nat) (d d' : List Byte), n ≤ 64 → d.take n = d'.take n →
    exec (.append n d) s = exec (.append n d') s) ∧
  (∀ (s : State) (n : Nat) (d d' : List Byte), 64 < n → exec (.append n d) s = exec (.append n d') s) ∧
  (∀ (s : State) (n : Nat) (d : List Byte) (t : State), Inv s → s.phase = .accum →
    (Instr.append n d).wf = true → exec (.append n d) s = .next t →
      ∀ a, totalBytes t ≤ a → Memory.readByte t.mem a = 0#8)

/-- R99: two sequences of `create` and legal `append`s with the same payload bytes in order leave the same chunks
and the same response to a following `finalize`. -/
def Obligations.ChunkingDoesNotMatter : Prop :=
  ∀ (s t u : State) (cs ds : List (Nat × List Byte)), Inv s → s.phase = .absent →
    (∀ c ∈ cs, (Instr.append c.1 c.2).wf = true) → (∀ c ∈ ds, (Instr.append c.1 c.2).wf = true) →
    (cs.flatMap fun c => c.2.take c.1) = (ds.flatMap fun c => c.2.take c.1) →
    runCommands (.create :: cs.map fun c => .append c.1 c.2) s = .next t →
    runCommands (.create :: ds.map fun c => .append c.1 c.2) s = .next u →
    t.observed = s.observed ++ List.replicate (cs.length + 1) ⟨.ok, none⟩ →
    u.observed = s.observed ++ List.replicate (ds.length + 1) ⟨.ok, none⟩ →
      t.mem = u.mem ∧ t.lens = u.lens ∧
      ∃ t' u', exec .finalize t = .next t' ∧ exec .finalize u = .next u' ∧ t'.port = u'.port

/-! ### Padder (42_padder.md) -/

/-- R107, R108, R109, R110: where `PAD` writes the marker and the length field, for every occupied length of the
tail; every other byte, and every `len`, is as before. -/
def Obligations.PadWritesMarkerAndLengthField : Prop :=
  ∀ s : State, Inv s → s.phase = .accum → 1 ≤ nchunks s →
    ∃ t, microPad s = .next t ∧
      (chunkLen s (nchunks s - 1) < 56 → nchunks t = nchunks s) ∧
      (56 ≤ chunkLen s (nchunks s - 1) → nchunks t = nchunks s + 1 ∧ chunkLen t (nchunks s) = 0) ∧
      (chunkLen s (nchunks s - 1) < 64 →
        chunkByte t (nchunks s - 1) (chunkLen s (nchunks s - 1)) = 0x80#8) ∧
      (chunkLen s (nchunks s - 1) = 64 → chunkByte t (nchunks s) 0 = 0x80#8) ∧
      (∀ i < 8, (chunkByte t (nchunks t - 1) (56 + i)).toNat = s.tr.ml.toNat / 2 ^ (8 * (7 - i)) % 256) ∧
      (∀ o < 64, chunkLen s (nchunks s - 1) < o → 56 ≤ chunkLen s (nchunks s - 1) →
        chunkByte t (nchunks s - 1) o = 0#8) ∧
      (∀ o < 56, chunkLen s (nchunks s - 1) < o → chunkByte t (nchunks s - 1) o = 0#8) ∧
      (∀ o < 56, 56 ≤ chunkLen s (nchunks s - 1) → 1 ≤ o ∨ chunkLen s (nchunks s - 1) ≠ 64 →
        chunkByte t (nchunks s) o = 0#8) ∧
      (∀ a, a ≠ 64 * (nchunks s - 1) + chunkLen s (nchunks s - 1) →
        ¬ (64 * (nchunks t - 1) + 56 ≤ a ∧ a < 64 * (nchunks t - 1) + 64) →
          Memory.readByte t.mem a = Memory.readByte s.mem a) ∧
      (∀ k < nchunks s, chunkLen t k = chunkLen s k) ∧
      t = { s with mem := t.mem, lens := t.lens, tr := t.tr }

/-- R111: after `PAD` the chunks hold the padded message, with the least zero fill that makes whole blocks. -/
def Obligations.PaddedMessageFillsWholeBlocks : Prop :=
  ∀ s : State, Inv s → s.phase = .accum → 1 ≤ nchunks s →
    ∃ t z, microPad (latchLength s) = .next t ∧
      storedBytes t = message s ++ [0x80#8] ++ List.replicate z 0#8 ++
        (List.range 8).map (fun i => BitVec.ofNat 8 (8 * (message s).length / 2 ^ (8 * (7 - i)))) ∧
      (z : Int) = (55 - (message s).length) % 64 ∧
      (∀ y, ((message s).length + 1 + y + 8) % 64 = 0 → z ≤ y) ∧
      nchunks t = ((message s).length + 8) / 64 + 1

/-- R106: `ML` is `8 · TOTAL_BYTES` before `PAD` writes anything, a multiple of 8 of at most 2^64 − 8, and
`TOTAL_BITS` has the same value after `PAD`. -/
def Obligations.LengthIsLatchedBeforePadding : Prop :=
  ∀ s : State, Inv s → s.phase = .accum → 1 ≤ nchunks s →
    (latchLength s).tr.ml.toNat = 8 * totalBytes s ∧ (latchLength s).tr.ml.toNat % 8 = 0 ∧
      (latchLength s).tr.ml.toNat ≤ 2 ^ 64 - 8 ∧
      ∃ t, microPad (latchLength s) = .next t ∧ t.tr.ml = (latchLength s).tr.ml ∧ totalBits t = totalBits s

/-! ### Schedule and compressor (43_schedule_expander.md, 44_compressor.md) -/

/-- R44, R115: `LOAD` forms sixteen big-endian words from the 64 bytes of block `BLK` and changes nothing else. -/
def Obligations.LoadFormsBigEndianWords : Prop :=
  ∀ s : State, s.tr.blk < nchunks s →
    ∃ t, microLoad s = .next t ∧
      (∀ i : Fin 80, i.val < 16 → t.tr.w[i].toNat =
        (chunkByte s s.tr.blk (4 * i.val)).toNat * 2 ^ 24 +
        (chunkByte s s.tr.blk (4 * i.val + 1)).toNat * 2 ^ 16 +
        (chunkByte s s.tr.blk (4 * i.val + 2)).toNat * 2 ^ 8 +
        (chunkByte s s.tr.blk (4 * i.val + 3)).toNat) ∧
      (∀ i : Fin 80, 16 ≤ i.val → t.tr.w[i] = s.tr.w[i]) ∧
      t = { s with tr := { s.tr with w := t.tr.w, fstep := .expand } }

/-- R116: the recurrence of `EXPAND`, every word in terms of the words before it, and the words of the block left
alone. -/
def Obligations.ExpandFollowsTheRecurrence : Prop :=
  ∀ s : State,
    (∀ (i : Nat) (_ : 16 ≤ i) (_ : i < 80), (microExpand s).tr.w[i] =
      ((microExpand s).tr.w[i - 3] ^^^ (microExpand s).tr.w[i - 8] ^^^ (microExpand s).tr.w[i - 14] ^^^
        (microExpand s).tr.w[i - 16]).rotateLeft 1) ∧
    (∀ (i : Nat) (_ : i < 16), (microExpand s).tr.w[i] = s.tr.w[i]) ∧
    microExpand s = { s with tr := { s.tr with w := (microExpand s).tr.w, fstep := .init } }

/-- 44_compressor.md section 2: a rotation moves bit `j` to bit `(j + n) mod 32` and loses none. -/
def Obligations.RotationMovesEveryBit : Prop :=
  ∀ (x : Word) (n j : Nat), 0 < n → n < 32 → j < 32 →
    (rotl32 x n).getLsbD ((j + n) % 32) = x.getLsbD j

/-- R121: `F` is choose, parity and majority, bit by bit, in the ranges of the rounds. -/
def Obligations.RoundFunctionIsChooseParityMajority : Prop :=
  ∀ (t : Fin 80) (b c d : Word) (j : Nat), j < 32 →
    (t.val ≤ 19 → (roundF t b c d).getLsbD j = if b.getLsbD j then c.getLsbD j else d.getLsbD j) ∧
    (20 ≤ t.val ∧ t.val ≤ 39 ∨ 60 ≤ t.val →
      (roundF t b c d).getLsbD j = (b.getLsbD j).xor ((c.getLsbD j).xor (d.getLsbD j))) ∧
    (40 ≤ t.val ∧ t.val ≤ 59 → (roundF t b c d).getLsbD j =
      decide (2 ≤ (b.getLsbD j).toNat + (c.getLsbD j).toNat + (d.getLsbD j).toNat))

/-- R122: the four round constants and the rounds they belong to. -/
def Obligations.RoundConstantsChangeEveryTwentyRounds : Prop :=
  ∀ t : Fin 80,
    (t.val ≤ 19 → roundK t = 0x5A827999#32) ∧
    (20 ≤ t.val ∧ t.val ≤ 39 → roundK t = 0x6ED9EBA1#32) ∧
    (40 ≤ t.val ∧ t.val ≤ 59 → roundK t = 0x8F1BBCDC#32) ∧
    (60 ≤ t.val → roundK t = 0xCA62C1D6#32)

/-- R123: one round, with the sum taken as numbers modulo 2^32, and its effect on the control state. -/
def Obligations.RoundShiftsTheWorkingRegisters : Prop :=
  ∀ s : State,
    (microRound s).tr.temp.toNat = ((s.tr.a.w0.rotateLeft 5).toNat +
      (roundF s.tr.t s.tr.a.w1 s.tr.a.w2 s.tr.a.w3).toNat + s.tr.a.w4.toNat + (s.tr.w[s.tr.t]).toNat +
      (roundK s.tr.t).toNat) % 2 ^ 32 ∧
    (microRound s).tr.a =
      ⟨(microRound s).tr.temp, s.tr.a.w0, s.tr.a.w1.rotateLeft 30, s.tr.a.w2, s.tr.a.w3⟩ ∧
    (s.tr.t.val < 79 → (microRound s).tr.t.val = s.tr.t.val + 1 ∧ (microRound s).tr.fstep = .round) ∧
    (s.tr.t.val = 79 → (microRound s).tr.t = s.tr.t ∧ (microRound s).tr.fstep = .fold) ∧
    (∃ temp a t f, microRound s = { s with tr := { s.tr with temp := temp, a := a, t := t, fstep := f } })

/-- R120, R124: `INIT` copies `H` and sets `T` to 0; `FOLD` adds each working register into `H` modulo 2^32;
neither changes anything else but the control state. -/
def Obligations.InitCopiesAndFoldAdds : Prop :=
  ∀ s : State,
    (microInit s).tr.a = s.h ∧ (microInit s).tr.t = 0 ∧
    microInit s = { s with tr := { s.tr with a := s.h, t := 0, fstep := .round } } ∧
    (microFold s).h.w0.toNat = (s.h.w0.toNat + s.tr.a.w0.toNat) % 2 ^ 32 ∧
    (microFold s).h.w1.toNat = (s.h.w1.toNat + s.tr.a.w1.toNat) % 2 ^ 32 ∧
    (microFold s).h.w2.toNat = (s.h.w2.toNat + s.tr.a.w2.toNat) % 2 ^ 32 ∧
    (microFold s).h.w3.toNat = (s.h.w3.toNat + s.tr.a.w3.toNat) % 2 ^ 32 ∧
    (microFold s).h.w4.toNat = (s.h.w4.toNat + s.tr.a.w4.toNat) % 2 ^ 32 ∧
    (∃ b f, microFold s = { s with h := (microFold s).h, tr := { s.tr with blk := b, fstep := f } })

/-- 44_compressor.md section 3, (a) to (d): equal forms of `F`, and where a round's registers come from. -/
def Obligations.RoundFunctionHasTheListedEqualForms : Prop :=
  (∀ (t : Fin 80) (b c d : Word),
    (t.val ≤ 19 → roundF t b c d = d ^^^ (b &&& (c ^^^ d)) ∧
      roundF t b c d = (b &&& c) ^^^ (~~~b &&& d) ∧ roundF t b c d = (b &&& c) + (~~~b &&& d)) ∧
    (40 ≤ t.val ∧ t.val ≤ 59 → roundF t b c d = (b &&& c) ||| (d &&& (b ||| c)) ∧
      roundF t b c d = (b &&& c) ^^^ (b &&& d) ^^^ (c &&& d))) ∧
  (∀ (t u : Fin 80) (b c d : Word), 20 ≤ t.val ∧ t.val ≤ 39 → 60 ≤ u.val → roundF t b c d = roundF u b c d) ∧
  (∀ s : State, (microRound s).tr.a.w1 = s.tr.a.w0 ∧ (microRound s).tr.a.w3 = s.tr.a.w2 ∧
    (microRound s).tr.a.w4 = s.tr.a.w3)

/-- R128: one pass of the walk applies `compress` to `H` and the 64 bytes of block `BLK`, reads nothing else, and
leaves nothing else that survives. -/
def Obligations.OnePassCompressesOneBlock : Prop :=
  ∀ s : State, s.tr.blk < nchunks s →
    ∃ t, blockPass s = .next t ∧ t.h = compress s.h (chunkData s s.tr.blk 64) ∧
      t = { s with h := t.h, tr := t.tr }

/-! ### FINALIZE and the digest (45_finalize_digest.md) -/

/-- R163: `FINALIZE` with no byte ever appended is `EmptyInput`, changes nothing and does not mark the run, and
nothing else raises it. -/
def Obligations.EmptyInputIsRejected : Prop :=
  (∀ s : State, s.phase = .accum → nchunks s = 0 →
    ∃ t, exec .finalize s = .next t ∧ OnlyAnswers ⟨.emptyInput, none⟩ s t ∧ t.faultMark = s.faultMark) ∧
  (∀ (s : State) (i : Instr) (t : State) (dg : Option (BitVec 160)),
    exec i s = .next t → t.port = some ⟨.emptyInput, dg⟩ → i = .finalize ∧ nchunks s = 0) ∧
  (∀ s : State, Inv s → s.phase = .accum → (nchunks s = 0 ↔ totalBytes s = 0))

/-- A successful `FINALIZE` walks every chunk in order (R142) and answers the five words of `H` (R144). The last
clause says the same of the message before padding (R111, R149). -/
def Obligations.FinalizeAnswersTheDigestOfTheMessage : Prop :=
  ∀ s : State, Inv s → s.phase = .accum → 1 ≤ nchunks s →
    ∃ t, exec .finalize s = .next t ∧ t.phase = .done ∧
      nchunks t = (totalBytes s + 8) / 64 + 1 ∧
      t.h = ((List.range (nchunks t)).map fun b => chunkData t b 64).foldl compress
        ⟨0x67452301#32, 0xEFCDAB89#32, 0x98BADCFE#32, 0x10325476#32, 0xC3D2E1F0#32⟩ ∧
      AnswersInRun ⟨.ok, some (t.h.w0 ++ t.h.w1 ++ t.h.w2 ++ t.h.w3 ++ t.h.w4)⟩ s t ∧
      t.h = sha1 (message s)

/-- The frame of `FINALIZE`: chunk memory changes at the marker and the length field only, no `len` changes, the
chunk it may add has `len` 0. The datapath is a free value afterwards, of which nothing is said. -/
def Obligations.FinalizeChangesOnlyThePadding : Prop :=
  ∀ s : State, Inv s → s.phase = .accum → 1 ≤ nchunks s →
    ∃ t, exec .finalize s = .next t ∧
      (∀ a, a ≠ totalBytes s → ¬ (64 * ((totalBytes s + 8) / 64) + 56 ≤ a ∧ a < 64 * ((totalBytes s + 8) / 64) + 64) →
        Memory.readByte t.mem a = Memory.readByte s.mem a) ∧
      (∀ k < nchunks s, chunkLen t k = chunkLen s k) ∧ totalBytes t = totalBytes s ∧
      t.cfg = s.cfg ∧ t.inputs = s.inputs ∧ t.hostRead = s.hostRead ∧ t.faultMark = s.faultMark

/-- R143: every transition of the control table. -/
def Obligations.MicroStepsFollowTheControlTable : Prop :=
  ∀ s : State,
    ((latchLength s).tr.fstep = .pad ∧ (latchLength s).tr.ml = totalBits s) ∧
    (∀ u, s.tr.fstep = .pad → microStep s = .next (.running u) →
      u.tr.fstep = .load ∧ u.tr.blk = 0 ∧ u.tr.nb = nchunks u ∧ u.tr.ml = s.tr.ml) ∧
    (∀ u, s.tr.fstep = .load → microStep s = .next (.running u) → u.tr.fstep = .expand) ∧
    (s.tr.fstep = .expand → ∃ u, microStep s = .next (.running u) ∧ u.tr.fstep = .init) ∧
    (s.tr.fstep = .init → ∃ u, microStep s = .next (.running u) ∧ u.tr.fstep = .round ∧ u.tr.t = 0) ∧
    (s.tr.fstep = .round → s.tr.t.val < 79 →
      ∃ u, microStep s = .next (.running u) ∧ u.tr.fstep = .round ∧ u.tr.t.val = s.tr.t.val + 1) ∧
    (s.tr.fstep = .round → s.tr.t.val = 79 → ∃ u, microStep s = .next (.running u) ∧ u.tr.fstep = .fold) ∧
    (s.tr.fstep = .fold → s.tr.blk + 1 < s.tr.nb →
      ∃ u, microStep s = .next (.running u) ∧ u.tr.fstep = .load ∧ u.tr.blk = s.tr.blk + 1) ∧
    (s.tr.fstep = .fold → s.tr.blk + 1 = s.tr.nb →
      ∃ u, microStep s = .next (.answered u) ∧ u.phase = .done ∧
        u.port = some ⟨.ok, some (digestOf u.h)⟩)

/-- 45_finalize_digest.md sections 1 and 2 (R141, R143): the finer machine, one micro-step at a time from the latched
length, ends in the very state the atomic `FINALIZE` answers, after one `PAD` and 84 micro-steps for each block, and
not before; every transient is written before it is read, so what they held beforehand does not matter. That `PHASE`,
`H`, `CHUNKS` and the response agree is the spec's; that the unspecified datapath and control state and the number of
the draw agree too is the model's choice, whose draw at the end of `FINALIZE` does not look at the old transients (log
entry 18). -/
def Obligations.MicroStepsEndWhereFinalizeEnds : Prop :=
  ∀ s : State, Inv s → s.phase = .accum → 1 ≤ nchunks s →
    (∃ t, exec .finalize s = .next t ∧
      microRun (1 + 84 * ((totalBytes s + 8) / 64 + 1)) (latchLength s) = .next (.answered t) ∧
      ∀ k < 1 + 84 * ((totalBytes s + 8) / 64 + 1),
        ∃ u, microRun k (latchLength s) = .next (.running u)) ∧
    ∀ r : Transient, exec .finalize { s with tr := r } = exec .finalize s

/-- R149: for `create`, legal `append`s whose payloads concatenate to a non-empty `B` of at most 2^61 − 1 bytes,
then `finalize`, the responses are `OK` and the last carries `SHA1(B)`, whatever the unused payload lanes hold. -/
def Obligations.CommandSequenceAnswersSha1 : Prop :=
  ∀ (s : State) (cs : List (Nat × List Byte)) (b : List Byte) (rest : List HostEvent), s.phase = .absent →
    (∀ c ∈ cs, (Instr.append c.1 c.2).wf = true ∧ c.1 ≤ 64) → (cs.flatMap fun c => c.2.take c.1) = b →
    b ≠ [] → b.length ≤ 2 ^ 61 - 1 → (∀ m ∈ s.cfg.maxChunks, b.length + 64 ≤ 64 * m) →
    s.inputs = ((Instr.create :: (cs.map fun c => Instr.append c.1 c.2) ++ [Instr.finalize]).map issue) ++ rest →
      ∃ t : State, runSteps (cs.length + 2) s = .next t ∧ t.phase = .done ∧ t.inputs = rest ∧
        t.observed = s.observed ++ List.replicate (cs.length + 1) ⟨.ok, none⟩ ++
          [⟨.ok, some (digestOf (sha1 b))⟩] ∧
        t.faultMark = s.faultMark

/-- 30_encoding.md section 6: the expansion of the pseudo-command `hash B`. The zeros on the unused lanes of the last
`append` are the model's choice (log entry 17). -/
def Obligations.HashExpandsIntoSixtyFourByteAppends : Prop :=
  ∀ b : List Byte, b ≠ [] →
    hashScript b = .create ::
      ((List.range (b.length / 64)).map fun i => Instr.append 64 ((b.drop (64 * i)).take 64)) ++
      (if b.length % 64 = 0 then []
        else [.append (b.length % 64)
          (b.drop (64 * (b.length / 64)) ++ List.replicate (64 - b.length % 64) 0#8)]) ++
      [.finalize, .destroy]

/-- R146: the digest is the big-endian concatenation of the five words, as a number and as 20 bytes. -/
def Obligations.DigestIsTheBigEndianConcatenation : Prop :=
  ∀ h : Words5,
    (digestOf h).toNat = h.w0.toNat * 2 ^ 128 + h.w1.toNat * 2 ^ 96 + h.w2.toNat * 2 ^ 64 +
      h.w3.toNat * 2 ^ 32 + h.w4.toNat ∧
    (digestBytes h).length = 20 ∧
    ∀ (i : Fin 5) (j : Nat), j < 4 →
      ((digestBytes h).getD (4 * i.val + j) 0#8).toNat = (hashWord h i).toNat / 2 ^ (24 - 8 * j) % 256

/-- R145: while `PHASE = DONE` no command but `DESTROY` changes `H`, `DIGEST` keeps showing it, and reading it
changes nothing of the engine. -/
def Obligations.DigestIsHeldWhileDone : Prop :=
  ∀ s : State, s.phase = .done →
    digestPort s = some (digestOf s.h) ∧
    (∀ (i : Instr) (t : State), exec i s = .next t → i ≠ .destroy →
      t.phase = .done ∧ t.h = s.h ∧ digestPort t = digestPort s) ∧
    (∀ rest, s.inputs = .readDigest :: rest →
      step s = .next { s with inputs := rest, hostRead := some (digestOf s.h) })

/-- R24: `DIGEST` has a value in the response to a successful `FINALIZE` and while `PHASE = DONE`, and nowhere
else; a read of the port elsewhere is a fault. -/
def Obligations.DigestHasNoValueElsewhere : Prop :=
  (∀ h : Words5, digestOf h = h.w0 ++ h.w1 ++ h.w2 ++ h.w3 ++ h.w4) ∧
  (∀ (s : State) (i : Instr) (t : State) (e : Status) (dg : Option (BitVec 160)),
    exec i s = .next t → t.port = some ⟨e, dg⟩ →
      (i = .finalize ∧ e = .ok → dg = some (digestOf t.h)) ∧ (i ≠ .finalize ∨ e ≠ .ok → dg = none)) ∧
  (∀ s : State, (s.phase = .done → digestPort s = some (digestOf s.h)) ∧
    (s.phase ≠ .done → digestPort s = none)) ∧
  (∀ (s : State) (rest : List HostEvent), s.phase ≠ .done → s.inputs = .readDigest :: rest →
    step s = .fault .digestUnspecified)

/-- R148: on a finalized instance no sequence of commands without a `DESTROY` gives a second digest: every
response is `StateError` and `H` is as it was. -/
def Obligations.OneInstanceGivesOneDigest : Prop :=
  ∀ (cmds : List Instr) (s t : State), s.phase = .done → .destroy ∉ cmds → runCommands cmds s = .next t →
    t.phase = .done ∧ t.h = s.h ∧
      t.observed = s.observed ++ List.replicate cmds.length ⟨.stateError, none⟩

/-! ### Reset (70_reset_and_hazards.md) -/

/-- 70_reset_and_hazards.md section 1: reset is taken in every state, also while a command is in progress; no
instance, message or digest is left, and the abandoned command gives no response. What reset leaves of the run is the
model's reading (log entry 6): the clauses on the record of responses, the later events and `MAX_CHUNKS` rest on
it. -/
def Obligations.ResetLeavesNoInstance : Prop :=
  State.reset.phase = .absent ∧ nchunks State.reset = 0 ∧
  ∀ (s : State) (rest : List HostEvent),
    (s.inputs = .reset :: rest ∨ ∃ p, s.inputs = .resetDuring p :: rest) →
      ∃ t, step s = .next t ∧ t.phase = .absent ∧ nchunks t = 0 ∧ digestPort t = none ∧
        t.port = none ∧ t.observed = s.observed ∧ t.inputs = rest ∧ t.cfg = s.cfg

/-- 70_reset_and_hazards.md section 1: reset and `DESTROY` leave the same state, `PHASE = ABSENT` with no chunk and
no digest, and everything else unspecified, of which nothing is said; but reset is accepted in every phase and gives
no response. What reset leaves of the run is the model's reading (log entry 6): the clauses on the record of
responses, the later events and `MAX_CHUNKS` rest on it. -/
def Obligations.ResetAndDestroyLeaveTheSameState : Prop :=
  ∀ (s : State) (rest : List HostEvent), s.inputs = .reset :: rest →
    ∃ t, step s = .next t ∧ t.phase = .absent ∧ nchunks t = 0 ∧ digestPort t = none ∧ t.port = none ∧
      t.observed = s.observed ∧
      (s.phase ≠ .absent → ∃ u, exec .destroy { s with inputs := rest } = .next u ∧
        u.phase = .absent ∧ nchunks u = 0 ∧ digestPort u = none ∧ u.cfg = t.cfg ∧ u.inputs = t.inputs)

/-! ### The whole machine -/

/-- The state after reset meets the invariants. -/
def Obligations.InvariantsHoldAtReset : Prop :=
  Inv State.reset ∧ DigestMatchesMemory State.reset

/-- Every step keeps the canonical memory, the chunk invariants, the capacity and the length bound. -/
def Obligations.EveryStepKeepsTheInvariant : Prop :=
  ∀ s t : State, Inv s → step s = .next t → Inv t

/-- Every step keeps it true that a held digest is that of the padded message in chunk memory. -/
def Obligations.EveryStepKeepsTheDigestMatched : Prop :=
  ∀ s t : State, Inv s → DigestMatchesMemory s → step s = .next t → DigestMatchesMemory t

/-- R178: the four statuses of the spec's own set the fault mark, the documented results do not and leave the state
unchanged, and no step clears the mark. -/
def Obligations.FaultMarkIsSetByFourStatusesAndStays : Prop :=
  (∀ s t : State, step s = .next t → s.faultMark = true → t.faultMark = true) ∧
  (∀ (s : State) (p : PortInput) (rest : List HostEvent) (t : State),
    s.inputs = .command p :: rest → step s = .next t →
      ∃ r, t.port = some r ∧ (t.faultMark = true ↔ s.faultMark = true ∨ r.status = .illegalCommand ∨
        r.status = .stateError ∨ r.status = .lengthOverflow ∨ r.status = .bufferFull) ∧
      (r.status = .oversizedChunk ∨ r.status = .emptyInput →
        OnlyAnswers r { s with inputs := rest } t ∧ t.faultMark = s.faultMark))

/-- Every well-formed command is answered, exactly once, in every state that meets the invariants, and what is
outside the engine stays (20_memory.md section 4, 70_reset_and_hazards.md section 4). -/
def Obligations.EveryCommandIsAnsweredOnce : Prop :=
  ∀ (s : State) (i : Instr), Inv s → i.wf = true →
    ∃ t r, exec i s = .next t ∧ t.port = some r ∧ t.observed = s.observed ++ [r] ∧ t.inputs = s.inputs ∧
      t.cfg = s.cfg ∧ t.hostRead = s.hostRead

/-- R170: a command that raises an error changes nothing but the response and the fault mark. -/
def Obligations.ErrorsLeaveTheStateUnchanged : Prop :=
  ∀ (s : State) (i : Instr) (t : State) (e : Status) (dg : Option (BitVec 160)),
    exec i s = .next t → t.port = some ⟨e, dg⟩ → e ≠ .ok → dg = none ∧ OnlyAnswers ⟨e, none⟩ s t

/-- 60_exceptions.md section 3 (R171): after an error the next command behaves as if the failed one had never been
issued: it answers as it would have, with the same response and the same engine state. That values left in unspecified
registers are the same too is the model's choice, whose draws do not look at the record of the run (log entry 18). -/
def Obligations.FailedCommandLeavesNoTrace : Prop :=
  ∀ (s : State) (i j : Instr) (t u : State) (e : Status) (dg : Option (BitVec 160)),
    Inv s → j.wf = true → exec i s = .next t → t.port = some ⟨e, dg⟩ → e ≠ .ok → exec j s = .next u →
      ∃ v, exec j t = .next v ∧ v.port = u.port ∧ v.observed = s.observed ++ [⟨e, none⟩] ++ u.port.toList ∧
        v = { u with observed := v.observed, faultMark := v.faultMark }

/-- What a run can show does not depend on anything the spec leaves unspecified in `ABSENT` (R28, R187, R196): two
states without an instance, alike in the parameter and in nothing else, answer every sequence of commands alike. -/
def Obligations.ResponsesIgnoreUnspecifiedState : Prop :=
  ∀ (cmds : List Instr) (s s' t : State), Inv s → Inv s' → s.phase = .absent → s'.phase = .absent →
    s.cfg = s'.cfg → (∀ i ∈ cmds, i.wf = true) → runCommands cmds s = .next t →
      ∃ (t' : State) (rs : List Response), runCommands cmds s' = .next t' ∧ t.observed = s.observed ++ rs ∧
        t'.observed = s'.observed ++ rs ∧ rs.length = cmds.length

/-- 60_exceptions.md section 1: the code of every status, seven different codes, and none is 7. -/
def Obligations.StatusCodesAreTheTable : Prop :=
  Status.code .ok = 0#3 ∧ Status.code .oversizedChunk = 1#3 ∧ Status.code .emptyInput = 2#3 ∧
  Status.code .illegalCommand = 3#3 ∧ Status.code .stateError = 4#3 ∧ Status.code .lengthOverflow = 5#3 ∧
  Status.code .bufferFull = 6#3 ∧ (∀ e, Status.code e ≠ 7#3) ∧
  ∀ e f, Status.code e = Status.code f → e = f

/-- 10_state.md section 3: of all commands and micro-steps only `CREATE`, `DESTROY` and the fold of a block write
`H`, and in `ACCUM` `H` is the five constants. -/
def Obligations.OnlyTheFoldChangesTheHash : Prop :=
  (∀ s u : State, microStep s = .next (.running u) → s.tr.fstep ≠ .fold → u.h = s.h) ∧
  (∀ (s : State) (i : Instr) (t : State), exec i s = .next t → t.h ≠ s.h →
    (i = .create ∧ s.phase = .absent) ∨ (i = .finalize ∧ s.phase = .accum) ∨
      (i = .destroy ∧ s.phase ≠ .absent)) ∧
  (∀ s : State, Inv s → s.phase = .accum →
    s.h = ⟨0x67452301#32, 0xEFCDAB89#32, 0x98BADCFE#32, 0x10325476#32, 0xC3D2E1F0#32⟩)
end

