-- ==== Sys2Proof/Laws/State.lean ====
section
/-! SUPPORT. One lemma for each field and each update of the state, so that no later proof unfolds a record
update. -/

namespace Sys2Proof.Machine

/-! ### `withInputs` -/

@[simp] theorem withInputs_cfg (s : State) (r : List HostEvent) : (withInputs s r).cfg = s.cfg := rfl
@[simp] theorem withInputs_phase (s : State) (r : List HostEvent) : (withInputs s r).phase = s.phase := rfl
@[simp] theorem withInputs_h (s : State) (r : List HostEvent) : (withInputs s r).h = s.h := rfl
@[simp] theorem withInputs_mem (s : State) (r : List HostEvent) : (withInputs s r).mem = s.mem := rfl
@[simp] theorem withInputs_lens (s : State) (r : List HostEvent) : (withInputs s r).lens = s.lens := rfl
@[simp] theorem withInputs_tr (s : State) (r : List HostEvent) : (withInputs s r).tr = s.tr := rfl
@[simp] theorem withInputs_inputs (s : State) (r : List HostEvent) : (withInputs s r).inputs = r := rfl
@[simp] theorem withInputs_port (s : State) (r : List HostEvent) : (withInputs s r).port = s.port := rfl
@[simp] theorem withInputs_observed (s : State) (r : List HostEvent) : (withInputs s r).observed = s.observed := rfl
@[simp] theorem withInputs_hostRead (s : State) (r : List HostEvent) : (withInputs s r).hostRead = s.hostRead := rfl
@[simp] theorem withInputs_faultMark (s : State) (r : List HostEvent) : (withInputs s r).faultMark = s.faultMark := rfl
@[simp] theorem withInputs_freeIdx (s : State) (r : List HostEvent) : (withInputs s r).freeIdx = s.freeIdx := rfl

/-! ### `present` -/

@[simp] theorem present_cfg (s : State) (p : PortInput) : (present s p).cfg = s.cfg := rfl
@[simp] theorem present_phase (s : State) (p : PortInput) : (present s p).phase = s.phase := rfl
@[simp] theorem present_h (s : State) (p : PortInput) : (present s p).h = s.h := rfl
@[simp] theorem present_mem (s : State) (p : PortInput) : (present s p).mem = s.mem := rfl
@[simp] theorem present_lens (s : State) (p : PortInput) : (present s p).lens = s.lens := rfl
@[simp] theorem present_tr (s : State) (p : PortInput) : (present s p).tr = s.tr := rfl
@[simp] theorem present_inputs (s : State) (p : PortInput) : (present s p).inputs = .command p :: s.inputs := rfl
@[simp] theorem present_port (s : State) (p : PortInput) : (present s p).port = s.port := rfl
@[simp] theorem present_observed (s : State) (p : PortInput) : (present s p).observed = s.observed := rfl
@[simp] theorem present_hostRead (s : State) (p : PortInput) : (present s p).hostRead = s.hostRead := rfl
@[simp] theorem present_faultMark (s : State) (p : PortInput) : (present s p).faultMark = s.faultMark := rfl
@[simp] theorem present_freeIdx (s : State) (p : PortInput) : (present s p).freeIdx = s.freeIdx := rfl

/-! ### `answer` -/

@[simp] theorem answer_cfg (r : Response) (s : State) : (answer r s).cfg = s.cfg := rfl
@[simp] theorem answer_phase (r : Response) (s : State) : (answer r s).phase = s.phase := rfl
@[simp] theorem answer_h (r : Response) (s : State) : (answer r s).h = s.h := rfl
@[simp] theorem answer_mem (r : Response) (s : State) : (answer r s).mem = s.mem := rfl
@[simp] theorem answer_lens (r : Response) (s : State) : (answer r s).lens = s.lens := rfl
@[simp] theorem answer_tr (r : Response) (s : State) : (answer r s).tr = s.tr := rfl
@[simp] theorem answer_inputs (r : Response) (s : State) : (answer r s).inputs = s.inputs := rfl
@[simp] theorem answer_port (r : Response) (s : State) : (answer r s).port = some r := rfl
@[simp] theorem answer_observed (r : Response) (s : State) : (answer r s).observed = s.observed ++ [r] := rfl
@[simp] theorem answer_hostRead (r : Response) (s : State) : (answer r s).hostRead = s.hostRead := rfl
@[simp] theorem answer_faultMark (r : Response) (s : State) : (answer r s).faultMark = s.faultMark := rfl
@[simp] theorem answer_freeIdx (r : Response) (s : State) : (answer r s).freeIdx = s.freeIdx := rfl

/-! ### `respondOk` -/

@[simp] theorem respondOk_cfg (d : Option (BitVec 160)) (s : State) : (respondOk d s).cfg = s.cfg := rfl
@[simp] theorem respondOk_phase (d : Option (BitVec 160)) (s : State) : (respondOk d s).phase = s.phase := rfl
@[simp] theorem respondOk_h (d : Option (BitVec 160)) (s : State) : (respondOk d s).h = s.h := rfl
@[simp] theorem respondOk_mem (d : Option (BitVec 160)) (s : State) : (respondOk d s).mem = s.mem := rfl
@[simp] theorem respondOk_lens (d : Option (BitVec 160)) (s : State) : (respondOk d s).lens = s.lens := rfl
@[simp] theorem respondOk_tr (d : Option (BitVec 160)) (s : State) : (respondOk d s).tr = s.tr := rfl
@[simp] theorem respondOk_inputs (d : Option (BitVec 160)) (s : State) : (respondOk d s).inputs = s.inputs := rfl
@[simp] theorem respondOk_port (d : Option (BitVec 160)) (s : State) : (respondOk d s).port = some ⟨.ok, d⟩ := rfl
@[simp] theorem respondOk_observed (d : Option (BitVec 160)) (s : State) : (respondOk d s).observed = s.observed ++ [⟨.ok, d⟩] := rfl
@[simp] theorem respondOk_hostRead (d : Option (BitVec 160)) (s : State) : (respondOk d s).hostRead = s.hostRead := rfl
@[simp] theorem respondOk_faultMark (d : Option (BitVec 160)) (s : State) : (respondOk d s).faultMark = s.faultMark := rfl
@[simp] theorem respondOk_freeIdx (d : Option (BitVec 160)) (s : State) : (respondOk d s).freeIdx = s.freeIdx := rfl

/-! ### `raise` -/

@[simp] theorem raise_cfg (e : Status) (s : State) : (raise e s).cfg = s.cfg := rfl
@[simp] theorem raise_phase (e : Status) (s : State) : (raise e s).phase = s.phase := rfl
@[simp] theorem raise_h (e : Status) (s : State) : (raise e s).h = s.h := rfl
@[simp] theorem raise_mem (e : Status) (s : State) : (raise e s).mem = s.mem := rfl
@[simp] theorem raise_lens (e : Status) (s : State) : (raise e s).lens = s.lens := rfl
@[simp] theorem raise_tr (e : Status) (s : State) : (raise e s).tr = s.tr := rfl
@[simp] theorem raise_inputs (e : Status) (s : State) : (raise e s).inputs = s.inputs := rfl
@[simp] theorem raise_port (e : Status) (s : State) : (raise e s).port = some ⟨e, none⟩ := rfl
@[simp] theorem raise_observed (e : Status) (s : State) : (raise e s).observed = s.observed ++ [⟨e, none⟩] := rfl
@[simp] theorem raise_hostRead (e : Status) (s : State) : (raise e s).hostRead = s.hostRead := rfl
@[simp] theorem raise_faultMark (e : Status) (s : State) : (raise e s).faultMark = (s.faultMark || e.marksRun) := rfl
@[simp] theorem raise_freeIdx (e : Status) (s : State) : (raise e s).freeIdx = s.freeIdx := rfl

/-! ### `setLen` -/

@[simp] theorem setLen_cfg (s : State) (k l : Nat) : (setLen s k l).cfg = s.cfg := rfl
@[simp] theorem setLen_phase (s : State) (k l : Nat) : (setLen s k l).phase = s.phase := rfl
@[simp] theorem setLen_h (s : State) (k l : Nat) : (setLen s k l).h = s.h := rfl
@[simp] theorem setLen_mem (s : State) (k l : Nat) : (setLen s k l).mem = s.mem := rfl
@[simp] theorem setLen_lens (s : State) (k l : Nat) : (setLen s k l).lens = s.lens.set k l := rfl
@[simp] theorem setLen_tr (s : State) (k l : Nat) : (setLen s k l).tr = s.tr := rfl
@[simp] theorem setLen_inputs (s : State) (k l : Nat) : (setLen s k l).inputs = s.inputs := rfl
@[simp] theorem setLen_port (s : State) (k l : Nat) : (setLen s k l).port = s.port := rfl
@[simp] theorem setLen_observed (s : State) (k l : Nat) : (setLen s k l).observed = s.observed := rfl
@[simp] theorem setLen_hostRead (s : State) (k l : Nat) : (setLen s k l).hostRead = s.hostRead := rfl
@[simp] theorem setLen_faultMark (s : State) (k l : Nat) : (setLen s k l).faultMark = s.faultMark := rfl
@[simp] theorem setLen_freeIdx (s : State) (k l : Nat) : (setLen s k l).freeIdx = s.freeIdx := rfl

/-! ### `newChunk` -/

@[simp] theorem newChunk_cfg (s : State) : (newChunk s).cfg = s.cfg := by simp only [newChunk]
@[simp] theorem newChunk_phase (s : State) : (newChunk s).phase = s.phase := by simp only [newChunk]
@[simp] theorem newChunk_h (s : State) : (newChunk s).h = s.h := by simp only [newChunk]
@[simp] theorem newChunk_mem (s : State) : (newChunk s).mem = Memory.writeBytes s.mem (cellAddr (nchunks s) 0) (List.replicate chunkCap 0#8) := by simp only [newChunk]
@[simp] theorem newChunk_lens (s : State) : (newChunk s).lens = s.lens ++ [0] := by simp only [newChunk]
@[simp] theorem newChunk_tr (s : State) : (newChunk s).tr = s.tr := by simp only [newChunk]
@[simp] theorem newChunk_inputs (s : State) : (newChunk s).inputs = s.inputs := by simp only [newChunk]
@[simp] theorem newChunk_port (s : State) : (newChunk s).port = s.port := by simp only [newChunk]
@[simp] theorem newChunk_observed (s : State) : (newChunk s).observed = s.observed := by simp only [newChunk]
@[simp] theorem newChunk_hostRead (s : State) : (newChunk s).hostRead = s.hostRead := by simp only [newChunk]
@[simp] theorem newChunk_faultMark (s : State) : (newChunk s).faultMark = s.faultMark := by simp only [newChunk]
@[simp] theorem newChunk_freeIdx (s : State) : (newChunk s).freeIdx = s.freeIdx := by simp only [newChunk]

/-! ### `forgetTransient` -/

@[simp] theorem forgetTransient_cfg (s : State) : (forgetTransient s).cfg = s.cfg := rfl
@[simp] theorem forgetTransient_phase (s : State) : (forgetTransient s).phase = s.phase := rfl
@[simp] theorem forgetTransient_h (s : State) : (forgetTransient s).h = s.h := rfl
@[simp] theorem forgetTransient_mem (s : State) : (forgetTransient s).mem = s.mem := rfl
@[simp] theorem forgetTransient_lens (s : State) : (forgetTransient s).lens = s.lens := rfl
@[simp] theorem forgetTransient_tr (s : State) : (forgetTransient s).tr = freeTransient (finalizeDraw s) := rfl
@[simp] theorem forgetTransient_inputs (s : State) : (forgetTransient s).inputs = s.inputs := rfl
@[simp] theorem forgetTransient_port (s : State) : (forgetTransient s).port = s.port := rfl
@[simp] theorem forgetTransient_observed (s : State) : (forgetTransient s).observed = s.observed := rfl
@[simp] theorem forgetTransient_hostRead (s : State) : (forgetTransient s).hostRead = s.hostRead := rfl
@[simp] theorem forgetTransient_faultMark (s : State) : (forgetTransient s).faultMark = s.faultMark := rfl
@[simp] theorem forgetTransient_freeIdx (s : State) : (forgetTransient s).freeIdx = finalizeDraw s := rfl

/-! ### `releaseInstance` -/

@[simp] theorem releaseInstance_cfg (s : State) : (releaseInstance s).cfg = s.cfg := rfl
@[simp] theorem releaseInstance_phase (s : State) : (releaseInstance s).phase = .absent := rfl
@[simp] theorem releaseInstance_h (s : State) : (releaseInstance s).h = freeHash (releaseDraw s) := rfl
@[simp] theorem releaseInstance_mem (s : State) : (releaseInstance s).mem = [] := rfl
@[simp] theorem releaseInstance_lens (s : State) : (releaseInstance s).lens = [] := rfl
@[simp] theorem releaseInstance_tr (s : State) : (releaseInstance s).tr = freeTransient (releaseDraw s) := rfl
@[simp] theorem releaseInstance_inputs (s : State) : (releaseInstance s).inputs = s.inputs := rfl
@[simp] theorem releaseInstance_port (s : State) : (releaseInstance s).port = s.port := rfl
@[simp] theorem releaseInstance_observed (s : State) : (releaseInstance s).observed = s.observed := rfl
@[simp] theorem releaseInstance_hostRead (s : State) : (releaseInstance s).hostRead = s.hostRead := rfl
@[simp] theorem releaseInstance_faultMark (s : State) : (releaseInstance s).faultMark = s.faultMark := rfl
@[simp] theorem releaseInstance_freeIdx (s : State) : (releaseInstance s).freeIdx = releaseDraw s := rfl

/-! ### `applyReset` -/

@[simp] theorem applyReset_cfg (s : State) : (applyReset s).cfg = s.cfg := rfl
@[simp] theorem applyReset_phase (s : State) : (applyReset s).phase = .absent := rfl
@[simp] theorem applyReset_h (s : State) : (applyReset s).h = freeHash (releaseDraw s) := rfl
@[simp] theorem applyReset_mem (s : State) : (applyReset s).mem = [] := rfl
@[simp] theorem applyReset_lens (s : State) : (applyReset s).lens = [] := rfl
@[simp] theorem applyReset_tr (s : State) : (applyReset s).tr = freeTransient (releaseDraw s) := rfl
@[simp] theorem applyReset_inputs (s : State) : (applyReset s).inputs = s.inputs := rfl
@[simp] theorem applyReset_port (s : State) : (applyReset s).port = none := rfl
@[simp] theorem applyReset_observed (s : State) : (applyReset s).observed = s.observed := rfl
@[simp] theorem applyReset_hostRead (s : State) : (applyReset s).hostRead = s.hostRead := rfl
@[simp] theorem applyReset_faultMark (s : State) : (applyReset s).faultMark = s.faultMark := rfl
@[simp] theorem applyReset_freeIdx (s : State) : (applyReset s).freeIdx = releaseDraw s := rfl

/-! ### `abandonCommand` -/

@[simp] theorem abandonCommand_cfg (p : PortInput) (s : State) : (abandonCommand p s).cfg = s.cfg := rfl
@[simp] theorem abandonCommand_phase (p : PortInput) (s : State) : (abandonCommand p s).phase = .absent := rfl
@[simp] theorem abandonCommand_mem (p : PortInput) (s : State) : (abandonCommand p s).mem = [] := rfl
@[simp] theorem abandonCommand_lens (p : PortInput) (s : State) : (abandonCommand p s).lens = [] := rfl
@[simp] theorem abandonCommand_inputs (p : PortInput) (s : State) : (abandonCommand p s).inputs = s.inputs := rfl
@[simp] theorem abandonCommand_port (p : PortInput) (s : State) : (abandonCommand p s).port = none := rfl
@[simp] theorem abandonCommand_observed (p : PortInput) (s : State) : (abandonCommand p s).observed = s.observed := rfl
@[simp] theorem abandonCommand_hostRead (p : PortInput) (s : State) : (abandonCommand p s).hostRead = s.hostRead := rfl
@[simp] theorem abandonCommand_faultMark (p : PortInput) (s : State) : (abandonCommand p s).faultMark = s.faultMark := rfl

/-! ### `freshInstance` -/

@[simp] theorem freshInstance_cfg (s : State) : (freshInstance s).cfg = s.cfg := rfl
@[simp] theorem freshInstance_phase (s : State) : (freshInstance s).phase = .accum := rfl
@[simp] theorem freshInstance_h (s : State) : (freshInstance s).h = initialHash := rfl
@[simp] theorem freshInstance_mem (s : State) : (freshInstance s).mem = [] := rfl
@[simp] theorem freshInstance_lens (s : State) : (freshInstance s).lens = [] := rfl
@[simp] theorem freshInstance_tr (s : State) : (freshInstance s).tr = s.tr := rfl
@[simp] theorem freshInstance_inputs (s : State) : (freshInstance s).inputs = s.inputs := rfl
@[simp] theorem freshInstance_port (s : State) : (freshInstance s).port = s.port := rfl
@[simp] theorem freshInstance_observed (s : State) : (freshInstance s).observed = s.observed := rfl
@[simp] theorem freshInstance_hostRead (s : State) : (freshInstance s).hostRead = s.hostRead := rfl
@[simp] theorem freshInstance_faultMark (s : State) : (freshInstance s).faultMark = s.faultMark := rfl
@[simp] theorem freshInstance_freeIdx (s : State) : (freshInstance s).freeIdx = s.freeIdx := rfl

/-! ### `latchLength` -/

@[simp] theorem latchLength_cfg (s : State) : (latchLength s).cfg = s.cfg := rfl
@[simp] theorem latchLength_phase (s : State) : (latchLength s).phase = s.phase := rfl
@[simp] theorem latchLength_h (s : State) : (latchLength s).h = s.h := rfl
@[simp] theorem latchLength_mem (s : State) : (latchLength s).mem = s.mem := rfl
@[simp] theorem latchLength_lens (s : State) : (latchLength s).lens = s.lens := rfl
@[simp] theorem latchLength_inputs (s : State) : (latchLength s).inputs = s.inputs := rfl
@[simp] theorem latchLength_port (s : State) : (latchLength s).port = s.port := rfl
@[simp] theorem latchLength_observed (s : State) : (latchLength s).observed = s.observed := rfl
@[simp] theorem latchLength_hostRead (s : State) : (latchLength s).hostRead = s.hostRead := rfl
@[simp] theorem latchLength_faultMark (s : State) : (latchLength s).faultMark = s.faultMark := rfl
@[simp] theorem latchLength_freeIdx (s : State) : (latchLength s).freeIdx = s.freeIdx := rfl

/-! ### `startWalk` -/

@[simp] theorem startWalk_cfg (s : State) : (startWalk s).cfg = s.cfg := rfl
@[simp] theorem startWalk_phase (s : State) : (startWalk s).phase = s.phase := rfl
@[simp] theorem startWalk_h (s : State) : (startWalk s).h = s.h := rfl
@[simp] theorem startWalk_mem (s : State) : (startWalk s).mem = s.mem := rfl
@[simp] theorem startWalk_lens (s : State) : (startWalk s).lens = s.lens := rfl
@[simp] theorem startWalk_inputs (s : State) : (startWalk s).inputs = s.inputs := rfl
@[simp] theorem startWalk_port (s : State) : (startWalk s).port = s.port := rfl
@[simp] theorem startWalk_observed (s : State) : (startWalk s).observed = s.observed := rfl
@[simp] theorem startWalk_hostRead (s : State) : (startWalk s).hostRead = s.hostRead := rfl
@[simp] theorem startWalk_faultMark (s : State) : (startWalk s).faultMark = s.faultMark := rfl
@[simp] theorem startWalk_freeIdx (s : State) : (startWalk s).freeIdx = s.freeIdx := rfl

/-! ### `microExpand` -/

@[simp] theorem microExpand_cfg (s : State) : (microExpand s).cfg = s.cfg := by simp only [microExpand]
@[simp] theorem microExpand_phase (s : State) : (microExpand s).phase = s.phase := by simp only [microExpand]
@[simp] theorem microExpand_h (s : State) : (microExpand s).h = s.h := by simp only [microExpand]
@[simp] theorem microExpand_mem (s : State) : (microExpand s).mem = s.mem := by simp only [microExpand]
@[simp] theorem microExpand_lens (s : State) : (microExpand s).lens = s.lens := by simp only [microExpand]
@[simp] theorem microExpand_inputs (s : State) : (microExpand s).inputs = s.inputs := by simp only [microExpand]
@[simp] theorem microExpand_port (s : State) : (microExpand s).port = s.port := by simp only [microExpand]
@[simp] theorem microExpand_observed (s : State) : (microExpand s).observed = s.observed := by simp only [microExpand]
@[simp] theorem microExpand_hostRead (s : State) : (microExpand s).hostRead = s.hostRead := by simp only [microExpand]
@[simp] theorem microExpand_faultMark (s : State) : (microExpand s).faultMark = s.faultMark := by simp only [microExpand]
@[simp] theorem microExpand_freeIdx (s : State) : (microExpand s).freeIdx = s.freeIdx := by simp only [microExpand]

/-! ### `microInit` -/

@[simp] theorem microInit_cfg (s : State) : (microInit s).cfg = s.cfg := rfl
@[simp] theorem microInit_phase (s : State) : (microInit s).phase = s.phase := rfl
@[simp] theorem microInit_h (s : State) : (microInit s).h = s.h := rfl
@[simp] theorem microInit_mem (s : State) : (microInit s).mem = s.mem := rfl
@[simp] theorem microInit_lens (s : State) : (microInit s).lens = s.lens := rfl
@[simp] theorem microInit_inputs (s : State) : (microInit s).inputs = s.inputs := rfl
@[simp] theorem microInit_port (s : State) : (microInit s).port = s.port := rfl
@[simp] theorem microInit_observed (s : State) : (microInit s).observed = s.observed := rfl
@[simp] theorem microInit_hostRead (s : State) : (microInit s).hostRead = s.hostRead := rfl
@[simp] theorem microInit_faultMark (s : State) : (microInit s).faultMark = s.faultMark := rfl
@[simp] theorem microInit_freeIdx (s : State) : (microInit s).freeIdx = s.freeIdx := rfl

/-! ### `microRound` -/

@[simp] theorem microRound_cfg (s : State) : (microRound s).cfg = s.cfg := rfl
@[simp] theorem microRound_phase (s : State) : (microRound s).phase = s.phase := rfl
@[simp] theorem microRound_h (s : State) : (microRound s).h = s.h := rfl
@[simp] theorem microRound_mem (s : State) : (microRound s).mem = s.mem := rfl
@[simp] theorem microRound_lens (s : State) : (microRound s).lens = s.lens := rfl
@[simp] theorem microRound_inputs (s : State) : (microRound s).inputs = s.inputs := rfl
@[simp] theorem microRound_port (s : State) : (microRound s).port = s.port := rfl
@[simp] theorem microRound_observed (s : State) : (microRound s).observed = s.observed := rfl
@[simp] theorem microRound_hostRead (s : State) : (microRound s).hostRead = s.hostRead := rfl
@[simp] theorem microRound_faultMark (s : State) : (microRound s).faultMark = s.faultMark := rfl
@[simp] theorem microRound_freeIdx (s : State) : (microRound s).freeIdx = s.freeIdx := rfl

/-! ### `microFold` -/

@[simp] theorem microFold_cfg (s : State) : (microFold s).cfg = s.cfg := rfl
@[simp] theorem microFold_phase (s : State) : (microFold s).phase = s.phase := rfl
@[simp] theorem microFold_h (s : State) : (microFold s).h = foldWork s.h s.tr.a := rfl
@[simp] theorem microFold_mem (s : State) : (microFold s).mem = s.mem := rfl
@[simp] theorem microFold_lens (s : State) : (microFold s).lens = s.lens := rfl
@[simp] theorem microFold_inputs (s : State) : (microFold s).inputs = s.inputs := rfl
@[simp] theorem microFold_port (s : State) : (microFold s).port = s.port := rfl
@[simp] theorem microFold_observed (s : State) : (microFold s).observed = s.observed := rfl
@[simp] theorem microFold_hostRead (s : State) : (microFold s).hostRead = s.hostRead := rfl
@[simp] theorem microFold_faultMark (s : State) : (microFold s).faultMark = s.faultMark := rfl
@[simp] theorem microFold_freeIdx (s : State) : (microFold s).freeIdx = s.freeIdx := rfl

/-! ### `finishFinalize` -/

@[simp] theorem finishFinalize_cfg (s : State) : (finishFinalize s).cfg = s.cfg := rfl
@[simp] theorem finishFinalize_phase (s : State) : (finishFinalize s).phase = .done := rfl
@[simp] theorem finishFinalize_h (s : State) : (finishFinalize s).h = s.h := rfl
@[simp] theorem finishFinalize_mem (s : State) : (finishFinalize s).mem = s.mem := rfl
@[simp] theorem finishFinalize_lens (s : State) : (finishFinalize s).lens = s.lens := rfl
@[simp] theorem finishFinalize_tr (s : State) : (finishFinalize s).tr = freeTransient (finalizeDraw s) := rfl
@[simp] theorem finishFinalize_inputs (s : State) : (finishFinalize s).inputs = s.inputs := rfl
@[simp] theorem finishFinalize_port (s : State) : (finishFinalize s).port = some ⟨.ok, some (digestOf s.h)⟩ := rfl
@[simp] theorem finishFinalize_observed (s : State) : (finishFinalize s).observed = s.observed ++ [⟨.ok, some (digestOf s.h)⟩] := rfl
@[simp] theorem finishFinalize_hostRead (s : State) : (finishFinalize s).hostRead = s.hostRead := rfl
@[simp] theorem finishFinalize_faultMark (s : State) : (finishFinalize s).faultMark = s.faultMark := rfl
@[simp] theorem finishFinalize_freeIdx (s : State) : (finishFinalize s).freeIdx = finalizeDraw s := rfl

/-! ### the datapath under `latchLength` -/

@[simp] theorem latchLength_tr_w (s : State) : (latchLength s).tr.w = s.tr.w := rfl
@[simp] theorem latchLength_tr_a (s : State) : (latchLength s).tr.a = s.tr.a := rfl
@[simp] theorem latchLength_tr_temp (s : State) : (latchLength s).tr.temp = s.tr.temp := rfl
@[simp] theorem latchLength_tr_fstep (s : State) : (latchLength s).tr.fstep = .pad := rfl
@[simp] theorem latchLength_tr_blk (s : State) : (latchLength s).tr.blk = s.tr.blk := rfl
@[simp] theorem latchLength_tr_nb (s : State) : (latchLength s).tr.nb = s.tr.nb := rfl
@[simp] theorem latchLength_tr_t (s : State) : (latchLength s).tr.t = s.tr.t := rfl
@[simp] theorem latchLength_tr_ml (s : State) : (latchLength s).tr.ml = totalBits s := rfl

/-! ### the datapath under `startWalk` -/

@[simp] theorem startWalk_tr_w (s : State) : (startWalk s).tr.w = s.tr.w := rfl
@[simp] theorem startWalk_tr_a (s : State) : (startWalk s).tr.a = s.tr.a := rfl
@[simp] theorem startWalk_tr_temp (s : State) : (startWalk s).tr.temp = s.tr.temp := rfl
@[simp] theorem startWalk_tr_fstep (s : State) : (startWalk s).tr.fstep = .load := rfl
@[simp] theorem startWalk_tr_blk (s : State) : (startWalk s).tr.blk = 0 := rfl
@[simp] theorem startWalk_tr_nb (s : State) : (startWalk s).tr.nb = nchunks s := rfl
@[simp] theorem startWalk_tr_t (s : State) : (startWalk s).tr.t = s.tr.t := rfl
@[simp] theorem startWalk_tr_ml (s : State) : (startWalk s).tr.ml = s.tr.ml := rfl

/-! ### the datapath under `microExpand` -/

@[simp] theorem microExpand_tr_w (s : State) : (microExpand s).tr.w = expandWords s.tr.w := by simp only [microExpand]
@[simp] theorem microExpand_tr_a (s : State) : (microExpand s).tr.a = s.tr.a := by simp only [microExpand]
@[simp] theorem microExpand_tr_temp (s : State) : (microExpand s).tr.temp = s.tr.temp := by simp only [microExpand]
@[simp] theorem microExpand_tr_fstep (s : State) : (microExpand s).tr.fstep = .init := by simp only [microExpand]
@[simp] theorem microExpand_tr_blk (s : State) : (microExpand s).tr.blk = s.tr.blk := by simp only [microExpand]
@[simp] theorem microExpand_tr_nb (s : State) : (microExpand s).tr.nb = s.tr.nb := by simp only [microExpand]
@[simp] theorem microExpand_tr_t (s : State) : (microExpand s).tr.t = s.tr.t := by simp only [microExpand]
@[simp] theorem microExpand_tr_ml (s : State) : (microExpand s).tr.ml = s.tr.ml := by simp only [microExpand]

/-! ### the datapath under `microInit` -/

@[simp] theorem microInit_tr_w (s : State) : (microInit s).tr.w = s.tr.w := rfl
@[simp] theorem microInit_tr_a (s : State) : (microInit s).tr.a = s.h := rfl
@[simp] theorem microInit_tr_temp (s : State) : (microInit s).tr.temp = s.tr.temp := rfl
@[simp] theorem microInit_tr_fstep (s : State) : (microInit s).tr.fstep = .round := rfl
@[simp] theorem microInit_tr_blk (s : State) : (microInit s).tr.blk = s.tr.blk := rfl
@[simp] theorem microInit_tr_nb (s : State) : (microInit s).tr.nb = s.tr.nb := rfl
@[simp] theorem microInit_tr_t (s : State) : (microInit s).tr.t = 0 := rfl
@[simp] theorem microInit_tr_ml (s : State) : (microInit s).tr.ml = s.tr.ml := rfl

/-! ### the datapath under `microRound` -/

@[simp] theorem microRound_tr_w (s : State) : (microRound s).tr.w = s.tr.w := rfl
@[simp] theorem microRound_tr_a (s : State) : (microRound s).tr.a = roundWork s.tr.t s.tr.w s.tr.a := rfl
@[simp] theorem microRound_tr_temp (s : State) : (microRound s).tr.temp = roundTemp s.tr.t s.tr.w s.tr.a := rfl
@[simp] theorem microRound_tr_fstep (s : State) : (microRound s).tr.fstep = if s.tr.t.val < 79 then .round else .fold := rfl
@[simp] theorem microRound_tr_blk (s : State) : (microRound s).tr.blk = s.tr.blk := rfl
@[simp] theorem microRound_tr_nb (s : State) : (microRound s).tr.nb = s.tr.nb := rfl
@[simp] theorem microRound_tr_t (s : State) : (microRound s).tr.t = nextRound s.tr.t := rfl
@[simp] theorem microRound_tr_ml (s : State) : (microRound s).tr.ml = s.tr.ml := rfl

/-! ### the datapath under `microFold` -/

@[simp] theorem microFold_tr_w (s : State) : (microFold s).tr.w = s.tr.w := rfl
@[simp] theorem microFold_tr_a (s : State) : (microFold s).tr.a = s.tr.a := rfl
@[simp] theorem microFold_tr_temp (s : State) : (microFold s).tr.temp = s.tr.temp := rfl
@[simp] theorem microFold_tr_fstep (s : State) : (microFold s).tr.fstep = if moreBlocks s then .load else .fold := rfl
@[simp] theorem microFold_tr_blk (s : State) : (microFold s).tr.blk = if moreBlocks s then s.tr.blk + 1 else s.tr.blk := rfl
@[simp] theorem microFold_tr_nb (s : State) : (microFold s).tr.nb = s.tr.nb := rfl
@[simp] theorem microFold_tr_t (s : State) : (microFold s).tr.t = s.tr.t := rfl
@[simp] theorem microFold_tr_ml (s : State) : (microFold s).tr.ml = s.tr.ml := rfl

end Sys2Proof.Machine
end

