-- ==== Sys2Proof/Laws/Memory.lean ====
section
/-! SUPPORT. Chunk memory as a canonical list of bytes: reads after writes, the canonical form kept by every
operation, and equal reads make equal memories. -/

namespace Sys2Proof.Machine

namespace Memory

theorem risesFrom_mono {m : Memory} {lo hi : Nat} (h : risesFrom hi m = true) (hle : lo ≤ hi) :
    risesFrom lo m = true := by
  cases m with
  | nil => rfl
  | cons c m =>
    simp only [risesFrom, Bool.and_eq_true, decide_eq_true_eq] at h ⊢
    exact ⟨⟨by omega, h.1.2⟩, h.2⟩

/-- Below the least listed address every read is the unlisted byte. -/
theorem readByte_below {m : Memory} {lo a : Nat} (h : risesFrom lo m = true) (ha : a < lo) :
    readByte m a = unlistedByte := by
  induction m generalizing lo with
  | nil => rfl
  | cons c m ih =>
    simp only [risesFrom, Bool.and_eq_true, decide_eq_true_eq] at h
    rw [readByte, if_neg (by omega)]
    exact ih h.2 (by omega)

theorem readByte_writeByte {m : Memory} {lo : Nat} (h : risesFrom lo m = true) (a : Nat) (v : Byte) (b : Nat) :
    readByte (writeByte m a v) b = if b = a then v else readByte m b := by
  induction m generalizing lo with
  | nil =>
    by_cases hv : v = unlistedByte <;> by_cases hb : a = b <;>
      simp [writeByte, readByte, hv, hb, Ne.symm]
  | cons c m ih =>
    obtain ⟨x, y⟩ := c
    simp only [risesFrom, Bool.and_eq_true, decide_eq_true_eq] at h
    have htail (hb : b ≤ x) : readByte m b = unlistedByte := readByte_below h.2 (by omega)
    rcases Nat.lt_trichotomy a x with hax | hax | hax
    · by_cases hb : b = a
      · subst hb
        by_cases hv : v = unlistedByte
        · simp [writeByte, readByte, hax, hv, show x ≠ b by omega, htail (by omega)]
        · simp [writeByte, readByte, hax, hv]
      · by_cases hv : v = unlistedByte <;> simp [writeByte, readByte, hax, hv, hb, show a ≠ b by omega]
    · subst hax
      by_cases hb : b = a
      · subst hb
        by_cases hv : v = unlistedByte
        · simp [writeByte, hv, htail (Nat.le_refl _)]
        · simp [writeByte, readByte, hv]
      · by_cases hv : v = unlistedByte <;> simp [writeByte, readByte, hv, hb, show a ≠ b by omega]
    · have hna : ¬ a < x := by omega
      have hne : a ≠ x := by omega
      by_cases hxb : x = b
      · subst hxb
        simp [writeByte, readByte, hna, hne, Ne.symm hne]
      · simp [writeByte, readByte, hna, hne, hxb, ih h.2]

theorem writeByte_risesFrom {m : Memory} {lo : Nat} (h : risesFrom lo m = true) {a : Nat} (ha : lo ≤ a) (v : Byte) :
    risesFrom lo (writeByte m a v) = true := by
  induction m generalizing lo with
  | nil => by_cases hv : v = unlistedByte <;> simp [writeByte, risesFrom, hv, ha]
  | cons c m ih =>
    obtain ⟨x, y⟩ := c
    have h' := h
    simp only [risesFrom, Bool.and_eq_true, decide_eq_true_eq] at h
    rcases Nat.lt_trichotomy a x with hax | hax | hax
    · by_cases hv : v = unlistedByte
      · simpa [writeByte, hax, hv] using h'
      · simp [writeByte, risesFrom, hax, hv, ha, h.1.2, h.2, Nat.succ_le_of_lt hax]
    · subst hax
      by_cases hv : v = unlistedByte
      · simpa [writeByte, hv] using risesFrom_mono h.2 (by omega)
      · simp [writeByte, risesFrom, hv, ha, h.2]
    · simp [writeByte, risesFrom, show ¬ a < x by omega, show a ≠ x by omega, h.1.1, h.1.2,
        ih h.2 (Nat.succ_le_of_lt hax)]

theorem mem_writeByte {m : Memory} {a : Nat} {v : Byte} {c : Host.Cell} (h : c ∈ writeByte m a v) :
    c ∈ m ∨ c.1 = a := by
  induction m with
  | nil =>
    by_cases hv : v = unlistedByte <;> simp [writeByte, hv] at h
    exact .inr (by rw [h])
  | cons d m ih =>
    obtain ⟨x, y⟩ := d
    simp only [writeByte] at h
    rcases Nat.lt_trichotomy a x with hax | hax | hax
    · by_cases hv : v = unlistedByte <;> simp only [hax, hv, if_true, if_false, List.mem_cons] at h ⊢
      · exact .inl h
      · rcases h with rfl | h
        · exact .inr rfl
        · exact .inl h
    · by_cases hv : v = unlistedByte <;>
        simp only [hax, Nat.lt_irrefl, hv, if_true, if_false, List.mem_cons] at h ⊢
      · exact .inl (.inr h)
      · rcases h with rfl | h
        · exact .inr rfl
        · exact .inl (.inr h)
    · simp only [show ¬ a < x by omega, show a ≠ x by omega, if_false, List.mem_cons] at h ⊢
      rcases h with h | h
      · exact .inl (.inl h)
      · rcases ih h with h | h
        · exact .inl (.inr h)
        · exact .inr h

/-- A store of one byte keeps the canonical form. -/
theorem wf_writeByte {m : Memory} (h : wf m = true) (a : Nat) (v : Byte) : wf (writeByte m a v) = true :=
  writeByte_risesFrom h (Nat.zero_le a) v

/-- A store of a byte list keeps the canonical form. -/
theorem wf_writeBytes {m : Memory} (h : wf m = true) (a : Nat) (vs : List Byte) :
    wf (writeBytes m a vs) = true := by
  induction vs generalizing m a with
  | nil => exact h
  | cons v vs ih => exact ih (wf_writeByte h a v) (a + 1)

/-- Reading one byte after a store of a byte list. -/
theorem readByte_writeBytes {m : Memory} (h : wf m = true) (a : Nat) (vs : List Byte) (b : Nat) :
    readByte (writeBytes m a vs) b =
      if a ≤ b ∧ b < a + vs.length then vs.getD (b - a) 0#8 else readByte m b := by
  induction vs generalizing m a with
  | nil =>
    rw [writeBytes, if_neg]
    simp only [List.length_nil]
    omega
  | cons v vs ih =>
    rw [writeBytes, ih (wf_writeByte h a v), readByte_writeByte h]
    simp only [List.length_cons]
    by_cases h1 : b = a
    · subst h1
      rw [if_neg (by omega), if_pos (by omega), if_pos (by omega)]
      simp
    · by_cases h2 : a + 1 ≤ b ∧ b < a + 1 + vs.length
      · obtain ⟨j, rfl⟩ : ∃ j, b = a + 1 + j := ⟨b - (a + 1), by omega⟩
        rw [if_pos h2, if_pos (by omega), show a + 1 + j - (a + 1) = j by omega,
          show a + 1 + j - a = j + 1 by omega]
        simp
      · rw [if_neg h2, if_neg h1, if_neg (by omega)]

theorem mem_writeBytes {m : Memory} {a : Nat} {vs : List Byte} {c : Host.Cell} (h : c ∈ writeBytes m a vs) :
    c ∈ m ∨ (a ≤ c.1 ∧ c.1 < a + vs.length) := by
  induction vs generalizing m a with
  | nil => exact .inl h
  | cons v vs ih =>
    rw [List.length_cons]
    rcases ih h with h | h
    · rcases mem_writeByte h with h | h
      · exact .inl h
      · exact .inr (by omega)
    · exact .inr (by omega)

theorem eq_of_readByte_eq {m₁ m₂ : Memory} {lo : Nat} (h₁ : risesFrom lo m₁ = true) (h₂ : risesFrom lo m₂ = true)
    (h : ∀ a, readByte m₁ a = readByte m₂ a) : m₁ = m₂ := by
  induction m₁ generalizing m₂ lo with
  | nil =>
    cases m₂ with
    | nil => rfl
    | cons c m =>
      simp only [risesFrom, Bool.and_eq_true, decide_eq_true_eq] at h₂
      exact absurd (h c.1).symm (by simpa [readByte] using h₂.1.2)
  | cons c m₁ ih =>
    obtain ⟨x, y⟩ := c
    have h₁' := h₁
    simp only [risesFrom, Bool.and_eq_true, decide_eq_true_eq] at h₁
    cases m₂ with
    | nil => exact absurd (h x) (by simpa [readByte] using h₁.1.2)
    | cons d m₂ =>
      obtain ⟨z, w⟩ := d
      have h₂' := h₂
      simp only [risesFrom, Bool.and_eq_true, decide_eq_true_eq] at h₂
      have hxz : x = z := by
        rcases Nat.lt_trichotomy x z with hlt | heq | hlt
        · have := h x
          rw [readByte_below (lo := z) (m := (z, w) :: m₂)
            (by simp [risesFrom, h₂.1.2, h₂.2]) hlt] at this
          exact absurd this (by simpa [readByte] using h₁.1.2)
        · exact heq
        · have := h z
          rw [readByte_below (lo := x) (m := (x, y) :: m₁)
            (by simp [risesFrom, h₁.1.2, h₁.2]) hlt] at this
          exact absurd this.symm (by simpa [readByte] using h₂.1.2)
      subst hxz
      have hyw : y = w := by simpa [readByte] using h x
      subst hyw
      rw [ih h₁.2 h₂.2 fun a => ?_]
      by_cases hxa : x = a
      · subst hxa
        rw [readByte_below h₁.2 (by omega), readByte_below h₂.2 (by omega)]
      · simpa [readByte, hxa] using h a

/-- Canonical memories with equal reads are equal data. -/
theorem ext_of_wf {m₁ m₂ : Memory} (h₁ : wf m₁ = true) (h₂ : wf m₂ = true)
    (h : ∀ a, readByte m₁ a = readByte m₂ a) : m₁ = m₂ := eq_of_readByte_eq h₁ h₂ h

/-- Where every listed address is below a bound, a read at or above it is the unlisted byte. -/
theorem readByte_outside {m : Memory} {b a : Nat} (h : ∀ c ∈ m, c.1 < b) (ha : b ≤ a) :
    readByte m a = unlistedByte := by
  induction m with
  | nil => rfl
  | cons c m ih =>
    have hc := h c List.mem_cons_self
    rw [readByte, if_neg (by omega)]
    exact ih fun d hd => h d (List.mem_cons_of_mem c hd)

end Memory

end Sys2Proof.Machine
end

