-- ==== Sys2Proof/Laws/Ops.lean ====
section
/-! SUPPORT. What the shared operations answer: sequencing, the bounded accesses of chunk memory, and the new
chunk. -/

namespace Sys2Proof.Machine

@[simp] theorem andThen_next {α β : Type} (a : α) (f : α → Result β) : andThen (.next a) f = f a := rfl

@[simp] theorem andThen_fault {α β : Type} (r : Fault) (f : α → Result β) :
    andThen (.fault r) f = .fault r := rfl

@[simp] theorem andThen_refused {α β : Type} (r : Refusal) (f : α → Result β) :
    andThen (.refused r) f = .refused r := rfl

/-- A sequence answers a next state exactly when both parts do. -/
theorem andThen_eq_next {α β : Type} {o : Result α} {f : α → Result β} {b : β} :
    andThen o f = .next b ↔ ∃ a, o = .next a ∧ f a = .next b := by
  cases o <;> simp

theorem andThen_assoc {α β γ : Type} (o : Result α) (f : α → Result β) (g : β → Result γ) :
    andThen (andThen o f) g = andThen o fun a => andThen (f a) g := by
  cases o <;> rfl

/-- What `MemRead` answers inside the bounds of R41. -/
theorem memRead_inside {s : State} {k o n : Nat} (hk : k < nchunks s) (ho : o + n ≤ 64) :
    memRead s k o n = .next ((List.range n).map fun j => chunkByte s k (o + j)) := by
  simp [memRead, inChunk, hk, ho]

/-- `MemRead` answers bytes only inside the bounds of R41, and changes nothing. -/
theorem memRead_eq_next {s : State} {k o n : Nat} {v : List Byte} (h : memRead s k o n = .next v) :
    k < nchunks s ∧ o + n ≤ 64 ∧ v = (List.range n).map fun j => chunkByte s k (o + j) := by
  unfold memRead at h
  split at h
  · rename_i hc
    simp only [inChunk, Bool.and_eq_true, decide_eq_true_eq] at hc
    exact ⟨hc.1, hc.2, (Host.Outcome.next.inj h).symm⟩
  · cases h

/-- What `MemWrite` answers inside the bounds of R41. -/
theorem memWrite_inside {s : State} {k o n : Nat} {v : List Byte} (hk : k < nchunks s) (ho : o + n ≤ 64)
    (hv : v.length = n) :
    memWrite s k o n v = .next { s with mem := Memory.writeBytes s.mem (64 * k + o) v } := by
  simp [memWrite, inChunk, hk, ho, hv, cellAddr]

/-- `MemWrite` answers a state only inside the bounds of R41, and that state differs in `data` bytes only. -/
theorem memWrite_eq_next {s t : State} {k o n : Nat} {v : List Byte} (h : memWrite s k o n v = .next t) :
    k < nchunks s ∧ o + n ≤ 64 ∧ v.length = n ∧
      t = { s with mem := Memory.writeBytes s.mem (64 * k + o) v } := by
  unfold memWrite at h
  split at h
  · rename_i hc
    simp only [inChunk, Bool.and_eq_true, decide_eq_true_eq] at hc
    exact ⟨hc.1.1, hc.1.2, hc.2, (Host.Outcome.next.inj h).symm⟩
  · cases h

/-- `MemWrite` keeps the canonical form. -/
theorem wf_memWrite {s t : State} {k o n : Nat} {v : List Byte} (hwf : Memory.wf s.mem = true)
    (h : memWrite s k o n v = .next t) : Memory.wf t.mem = true := by
  obtain ⟨-, -, -, rfl⟩ := memWrite_eq_next h
  exact Memory.wf_writeBytes hwf _ _

/-- The memory after reset is canonical. -/
theorem wf_reset : Memory.wf State.reset.mem = true := rfl

/-- The bytes from `a` on, `n` of them. -/
def readRange (m : Memory) (a n : Nat) : List Byte := (List.range n).map fun j => Memory.readByte m (a + j)

@[simp] theorem readRange_length (m : Memory) (a n : Nat) : (readRange m a n).length = n := by
  simp [readRange]

@[simp] theorem readRange_zero (m : Memory) (a : Nat) : readRange m a 0 = [] := rfl

theorem readRange_getElem {m : Memory} {a n j : Nat} (h : j < (readRange m a n).length) :
    (readRange m a n)[j] = Memory.readByte m (a + j) := by
  simp [readRange]

theorem readRange_add (m : Memory) (a n p : Nat) :
    readRange m a (n + p) = readRange m a n ++ readRange m (a + n) p := by
  simp [readRange, List.range_add, Nat.add_assoc]

theorem readRange_congr {m₁ m₂ : Memory} {a n : Nat}
    (h : ∀ j < n, Memory.readByte m₁ (a + j) = Memory.readByte m₂ (a + j)) :
    readRange m₁ a n = readRange m₂ a n := by
  apply List.map_congr_left
  intro j hj
  exact h j (List.mem_range.mp hj)

/-- The range just written reads back. -/
theorem readRange_writeBytes {m : Memory} (h : Memory.wf m = true) (a : Nat) (v : List Byte) :
    readRange (Memory.writeBytes m a v) a v.length = v := by
  apply List.ext_getElem
  · simp
  · intro j hj hv
    rw [readRange_getElem, Memory.readByte_writeBytes h, if_pos (by omega), show a + j - a = j by omega]
    simp [hv]

theorem chunkData_eq (s : State) (k l : Nat) :
    (List.range l).map (chunkByte s k) = readRange s.mem (64 * k) l := by
  simp [readRange, chunkByte, cellAddr]

theorem nchunks_newChunk (s : State) : nchunks (newChunk s) = nchunks s + 1 := by
  simp [nchunks]

/-- The bytes of a new chunk are zeros no other address sees: where no byte was listed beyond the existing
chunks, every read is as before. -/
theorem readByte_newChunk {s : State} (hwf : Memory.wf s.mem = true) (hin : ∀ c ∈ s.mem, c.1 < 64 * nchunks s)
    (a : Nat) : Memory.readByte (newChunk s).mem a = Memory.readByte s.mem a := by
  rw [newChunk_mem, Memory.readByte_writeBytes hwf]
  split
  · rename_i h
    simp only [cellAddr, chunkCap, List.length_replicate] at h
    rw [Memory.readByte_outside hin (by omega)]
    simp [unlistedByte, cellAddr]
  · rfl

theorem wf_newChunk {s : State} (hwf : Memory.wf s.mem = true) : Memory.wf (newChunk s).mem = true := by
  rw [newChunk_mem]
  exact Memory.wf_writeBytes hwf _ _

/-- Where no byte was listed beyond the existing chunks, making a chunk does not change the list at all. -/
theorem mem_newChunk {s : State} (hwf : Memory.wf s.mem = true) (hin : ∀ c ∈ s.mem, c.1 < 64 * nchunks s) :
    (newChunk s).mem = s.mem :=
  Memory.ext_of_wf (wf_newChunk hwf) hwf (readByte_newChunk hwf hin)

end Sys2Proof.Machine
end

