-- ==== Sys2Proof/Laws/Packed.lean ====
section
/-! SUPPORT. A packed chunk sequence is a function of the number of bytes it holds (R17): the lengths are
determined, and the message is the first bytes of chunk memory in order. -/

namespace Sys2Proof.Machine

/-- The `len` of every chunk of a packed sequence that holds `x` bytes (R17). -/
def packedLens (x : Nat) : List Nat :=
  List.replicate (x / 64) 64 ++ (if x % 64 = 0 then [] else [x % 64])

theorem packedLens_full (q : Nat) : packedLens (64 * q) = List.replicate q 64 := by
  simp [packedLens]

theorem packedLens_partial {q l : Nat} (h₀ : 0 < l) (h : l < 64) :
    packedLens (64 * q + l) = List.replicate q 64 ++ [l] := by
  have h1 : (64 * q + l) / 64 = q := by omega
  have h2 : (64 * q + l) % 64 = l := by omega
  simp [packedLens, h1, h2, Nat.ne_of_gt h₀]

@[simp] theorem packedLens_sum (x : Nat) : (packedLens x).sum = x := by
  rw [packedLens]
  split
  · simp
    omega
  · simp
    omega

@[simp] theorem packedLens_length (x : Nat) : (packedLens x).length = (x + 63) / 64 := by
  rw [packedLens]
  split
  · simp
    omega
  · simp
    omega

/-- A list of lengths in 1..64 of which all but the last are 64 is the packed one. -/
theorem eq_packedLens {ls : List Nat} (hb : ∀ k < ls.length, 1 ≤ ls.getD k 0 ∧ ls.getD k 0 ≤ 64)
    (hf : ∀ k < ls.length - 1, ls.getD k 0 = 64) : ls = packedLens ls.sum := by
  induction ls with
  | nil => simp [packedLens]
  | cons l ls ih =>
    cases ls with
    | nil =>
      have h0 := hb 0 (by simp)
      simp only [List.getD_cons_zero] at h0
      rcases Nat.lt_or_ge l 64 with hl | hl
      · simpa using (packedLens_partial (q := 0) h0.1 hl).symm
      · obtain rfl : l = 64 := by omega
        simpa using (packedLens_full 1).symm
    | cons l' ls =>
      have h0 := hf 0 (by simp)
      simp only [List.getD_cons_zero] at h0
      subst h0
      have := ih (fun k hk => by simpa using hb (k + 1) (by simpa using hk))
        (fun k hk => by
          have := hf (k + 1) (by simp at hk ⊢; omega)
          simpa using this)
      rw [List.sum_cons]
      have hx : packedLens (64 + (l' :: ls).sum) = 64 :: packedLens (l' :: ls).sum := by
        rw [packedLens, packedLens, show (64 + (l' :: ls).sum) / 64 = (l' :: ls).sum / 64 + 1 by omega,
          show (64 + (l' :: ls).sum) % 64 = (l' :: ls).sum % 64 by omega, List.replicate_succ,
          List.cons_append]
      rw [hx, ← this]

theorem packedLens_getD {x k : Nat} (hk : k < (x + 63) / 64) :
    (packedLens x).getD k 0 = min 64 (x - 64 * k) := by
  rw [packedLens, List.getD_eq_getElem?_getD, List.getElem?_append]
  simp only [List.length_replicate]
  split
  · rename_i h
    rw [List.getElem?_replicate, if_pos h]
    simp
    omega
  · rename_i h
    have hk' : k = x / 64 := by omega
    subst hk'
    rw [if_neg (by omega)]
    simp
    omega

/-- A packed sequence's lengths follow from the number of bytes it holds (R17). -/
theorem ChunksPacked.lens_eq {s : State} (h : ChunksPacked s) : s.lens = packedLens (totalBytes s) :=
  eq_packedLens h.lenBounds h.interiorFull

theorem nchunks_of_lens {s : State} {x : Nat} (h : s.lens = packedLens x) : nchunks s = (x + 63) / 64 := by
  simp [nchunks, h]

theorem totalBytes_of_lens {s : State} {x : Nat} (h : s.lens = packedLens x) : totalBytes s = x := by
  simp [totalBytes, h]

theorem chunkLen_of_lens {s : State} {x k : Nat} (h : s.lens = packedLens x) (hk : k < (x + 63) / 64) :
    chunkLen s k = min 64 (x - 64 * k) := by
  rw [chunkLen, h, packedLens_getD hk]

theorem ChunksPacked.nchunks_eq {s : State} (h : ChunksPacked s) : nchunks s = (totalBytes s + 63) / 64 :=
  nchunks_of_lens h.lens_eq

theorem ChunksPacked.chunkLen_eq {s : State} (h : ChunksPacked s) {k : Nat} (hk : k < nchunks s) :
    chunkLen s k = min 64 (totalBytes s - 64 * k) :=
  chunkLen_of_lens h.lens_eq (by rwa [h.nchunks_eq] at hk)

/-- Above the message every byte is zero (R16 (I-c)). -/
theorem ChunksPacked.zero_above {s : State} (h : ChunksPacked s) (hin : ∀ c ∈ s.mem, c.1 < 64 * nchunks s)
    {a : Nat} (ha : totalBytes s ≤ a) : Memory.readByte s.mem a = 0#8 := by
  rcases Nat.lt_or_ge a (64 * nchunks s) with hlt | hge
  · have hk : a / 64 < nchunks s := by omega
    have := h.unusedZero (a / 64) hk (a % 64) (by omega) (by rw [h.chunkLen_eq hk]; omega)
    rw [chunkByte, cellAddr] at this
    rwa [show chunkCap * (a / 64) + a % 64 = a by simp only [chunkCap]; omega] at this
  · exact Memory.readByte_outside hin hge

/-- The other direction: these lengths, with zeros above the message, are a packed sequence. -/
theorem packed_of_lens {s : State} {x : Nat} (h : s.lens = packedLens x)
    (hz : ∀ a, x ≤ a → Memory.readByte s.mem a = 0#8) : ChunksPacked s where
  lenBounds k hk := by
    rw [nchunks_of_lens h] at hk
    rw [chunkLen_of_lens h hk]
    omega
  interiorFull k hk := by
    rw [nchunks_of_lens h] at hk
    rw [chunkLen_of_lens h (by omega)]
    omega
  unusedZero k hk o ho hlo := by
    rw [nchunks_of_lens h] at hk
    rw [chunkLen_of_lens h hk] at hlo
    exact hz _ (by simp only [cellAddr, chunkCap]; omega)

theorem flatMap_full (m : Memory) (q : Nat) :
    ((List.range q).flatMap fun k => readRange m (64 * k) 64) = readRange m 0 (64 * q) := by
  induction q with
  | zero => rfl
  | succ q ih =>
    rw [List.range_succ, List.flatMap_append, ih, show 64 * (q + 1) = 64 * q + 64 by omega, readRange_add]
    simp

/-- All stored bytes are the bytes of chunk memory in address order (R40). -/
theorem storedBytes_eq (s : State) : storedBytes s = readRange s.mem 0 (64 * nchunks s) := by
  rw [storedBytes, ← flatMap_full]
  simp only [chunkData, chunkData_eq, chunkCap]

theorem flatMap_packed (m : Memory) (x : Nat) :
    ((List.range ((x + 63) / 64)).flatMap fun k => readRange m (64 * k) (min 64 (x - 64 * k))) =
      readRange m 0 x := by
  have hfull : ((List.range (x / 64)).flatMap fun k => readRange m (64 * k) (min 64 (x - 64 * k))) =
      readRange m 0 (64 * (x / 64)) := by
    rw [← flatMap_full, List.flatMap_def, List.flatMap_def]
    congr 1
    apply List.map_congr_left
    intro k hk
    rw [List.mem_range] at hk
    rw [Nat.min_eq_left (by omega)]
  rcases Nat.eq_zero_or_pos (x % 64) with h0 | h0
  · rw [show (x + 63) / 64 = x / 64 by omega, hfull, show 64 * (x / 64) = x by omega]
  · rw [show (x + 63) / 64 = x / 64 + 1 by omega, List.range_succ, List.flatMap_append, hfull,
      List.flatMap_singleton, Nat.min_eq_right (by omega)]
    conv_rhs => rw [show x = 64 * (x / 64) + (x - 64 * (x / 64)) by omega, readRange_add]
    rw [Nat.zero_add]

/-- The message of a packed sequence is the first bytes of chunk memory (R17). -/
theorem message_of_lens {s : State} {x : Nat} (h : s.lens = packedLens x) : message s = readRange s.mem 0 x := by
  rw [← flatMap_packed, message, nchunks_of_lens h, List.flatMap_def, List.flatMap_def]
  congr 1
  apply List.map_congr_left
  intro k hk
  rw [chunkLen_of_lens h (List.mem_range.mp hk), chunkData, chunkData_eq]

theorem ChunksPacked.message_eq {s : State} (h : ChunksPacked s) :
    message s = readRange s.mem 0 (totalBytes s) := message_of_lens h.lens_eq

theorem ChunksPacked.message_length {s : State} (h : ChunksPacked s) : (message s).length = totalBytes s := by
  rw [h.message_eq, readRange_length]

end Sys2Proof.Machine
end

