-- ==== Sys2Proof/Laws/Append.lean ====
section
/-! SUPPORT. What `absorb` does to a packed chunk sequence (R91): the bytes go directly after the last stored
byte, and the lengths are those of the longer message. -/

namespace Sys2Proof.Machine

theorem Memory.writeBytes_append (m : Memory) (a : Nat) (v w : List Byte) :
    writeBytes m a (v ++ w) = writeBytes (writeBytes m a v) (a + v.length) w := by
  induction v generalizing m a with
  | nil => simp [writeBytes]
  | cons x v ih => simp [writeBytes, ih, Nat.add_assoc, Nat.add_comm 1]

theorem newChunk_eq {s : State} (hwf : Memory.wf s.mem = true) (hin : ∀ c ∈ s.mem, c.1 < 64 * nchunks s) :
    newChunk s = { s with lens := s.lens ++ [0] } := by
  have h := mem_newChunk hwf hin
  rw [newChunk_mem] at h
  rw [newChunk, h]

theorem set_last (q l v : Nat) : (List.replicate q 64 ++ [l]).set q v = List.replicate q 64 ++ [v] := by
  rw [List.set_append]
  simp

/-- `absorb` on a tail that is full, or on no chunk at all: one new chunk. -/
theorem absorb_newTail {s : State} {q n : Nat} {d : List Byte} (hwf : Memory.wf s.mem = true)
    (hin : ∀ c ∈ s.mem, c.1 < 64 * nchunks s) (hl : s.lens = List.replicate q 64) (hn : 1 ≤ n) (hn' : n ≤ 64)
    (hd : n ≤ d.length) :
    absorb n d s = .next
      { s with mem := Memory.writeBytes s.mem (64 * q) (d.take n), lens := packedLens (64 * q + n) } := by
  have hq : nchunks s = q := by simp [nchunks, hl]
  have hfull : tailFull s = true := by
    cases q with
    | zero => simp [tailFull, hq]
    | succ q => simp [tailFull, hq, chunkLen, hl]
  have hopen : openTail s = { s with lens := List.replicate q 64 ++ [0] } := by
    rw [openTail, if_pos hfull, newChunk_eq hwf hin, hl]
  have hlen : packedLens (64 * q + n) = List.replicate q 64 ++ [n] := by
    rcases Nat.lt_or_ge n 64 with h | h
    · exact packedLens_partial hn h
    · obtain rfl : n = 64 := by omega
      rw [show 64 * q + 64 = 64 * (q + 1) by omega, packedLens_full, List.replicate_succ']
  have hk : chunkLen { s with lens := List.replicate q 64 ++ [0] } q = 0 := by
    simp [chunkLen, List.getD_eq_getElem?_getD]
  have hnk : nchunks { s with lens := List.replicate q 64 ++ [0] } - 1 = q := by simp [nchunks]
  rw [absorb, hopen]
  simp only [hnk, hk, chunkCap, Nat.sub_zero, Nat.min_eq_left hn']
  rw [fillTail, memWrite_inside (by simp [nchunks]) (by omega) (by simp [payloadBytes, hd])]
  simp only [andThen_next, Nat.lt_irrefl, if_false, setLen, payloadBytes, Nat.add_zero, Nat.zero_add]
  rw [hlen, set_last]

/-- `absorb` into a tail with room. -/
theorem absorb_openTail {s : State} {q l n : Nat} {d : List Byte} (hwf : Memory.wf s.mem = true)
    (hin : ∀ c ∈ s.mem, c.1 < 64 * nchunks s) (hl : s.lens = List.replicate q 64 ++ [l]) (h₀ : 0 < l)
    (h₁ : l < 64) (hn : 1 ≤ n) (hn' : n ≤ 64) (hd : n ≤ d.length) :
    absorb n d s = .next
      { s with
        mem := Memory.writeBytes s.mem (64 * q + l) (d.take n)
        lens := packedLens (64 * q + l + n) } := by
  have hq : nchunks s = q + 1 := by simp [nchunks, hl]
  have hk : chunkLen s q = l := by
    simp [chunkLen, hl, List.getD_eq_getElem?_getD]
  have hopen : openTail s = s := by
    rw [openTail, if_neg]
    simp [tailFull, hq, hk, chunkCap]
    omega
  rw [absorb, hopen]
  simp only [hq, Nat.add_sub_cancel, hk, chunkCap]
  have hr : (payloadBytes (min n (64 - l)) d).length = min n (64 - l) := by
    simp [payloadBytes]
    omega
  rw [fillTail, memWrite_inside (by omega) (by omega) hr]
  simp only [andThen_next]
  rcases Nat.lt_or_ge (64 - l) n with hsp | hfit
  · rw [Nat.min_eq_right (by omega), if_pos hsp, show l + (64 - l) = 64 by omega]
    have hmem : ∀ c ∈ Memory.writeBytes s.mem (64 * q + l) (payloadBytes (64 - l) d), c.1 < 64 * (q + 1) := by
      intro c hc
      rw [Nat.min_eq_right (by omega)] at hr
      rcases Memory.mem_writeBytes hc with h | h
      · have := hin c h
        rwa [hq] at this
      · omega
    have hset : s.lens.set q 64 = List.replicate (q + 1) 64 := by
      rw [hl, set_last, List.replicate_succ']
    have hrest : (payloadRest (64 - l) n d).length = n - (64 - l) := by
      simp [payloadRest]
      omega
    simp only [setLen, hset]
    rw [spill, newChunk_eq (Memory.wf_writeBytes hwf _ _) (by simpa [nchunks] using hmem),
      memWrite_inside (by simp [nchunks]) (by omega) hrest]
    simp only [andThen_next, setLen, nchunks, List.length_replicate, List.length_append, List.length_singleton,
      Nat.add_sub_cancel, Nat.add_zero]
    have hbytes : Memory.writeBytes (Memory.writeBytes s.mem (64 * q + l) (payloadBytes (64 - l) d)) (64 * (q + 1))
        (payloadRest (64 - l) n d) = Memory.writeBytes s.mem (64 * q + l) (d.take n) := by
      rw [Nat.min_eq_right (by omega)] at hr
      rw [show d.take n = payloadBytes (64 - l) d ++ payloadRest (64 - l) n d by
          rw [payloadBytes, payloadRest]
          conv_lhs => rw [← List.take_append_drop (64 - l) (d.take n)]
          rw [List.take_take, Nat.min_eq_left (by omega)],
        Memory.writeBytes_append, hr, show 64 * q + l + (64 - l) = 64 * (q + 1) by omega]
    rw [set_last, hbytes, show 64 * q + l + n = 64 * (q + 1) + (n - (64 - l)) by omega,
      packedLens_partial (by omega) (by omega)]
  · rw [Nat.min_eq_left hfit, if_neg (Nat.lt_irrefl n)]
    simp only [setLen, payloadBytes, hl, set_last]
    congr 2
    rcases Nat.lt_or_ge (l + n) 64 with h | h
    · rw [Nat.add_assoc, packedLens_partial (by omega) h]
    · rw [show 64 * q + l + n = 64 * (q + 1) by omega, packedLens_full, List.replicate_succ',
        show l + n = 64 by omega]

/-- What `absorb` answers on a packed chunk sequence (R91, R95). -/
theorem absorb_packed {s : State} {n : Nat} {d : List Byte} (hwf : Memory.wf s.mem = true)
    (hin : ∀ c ∈ s.mem, c.1 < 64 * nchunks s) (hp : ChunksPacked s) (hn : 1 ≤ n) (hn' : n ≤ 64)
    (hd : n ≤ d.length) :
    absorb n d s = .next
      { s with
        mem := Memory.writeBytes s.mem (totalBytes s) (d.take n)
        lens := packedLens (totalBytes s + n) } := by
  have hl := hp.lens_eq
  rcases Nat.eq_zero_or_pos (totalBytes s % 64) with h0 | h0
  · obtain ⟨q, hq⟩ : ∃ q, totalBytes s = 64 * q := ⟨totalBytes s / 64, by omega⟩
    rw [hq, packedLens_full] at hl
    rw [hq, absorb_newTail hwf hin hl hn hn' hd]
  · obtain ⟨q, l, hq, h1⟩ : ∃ q l, totalBytes s = 64 * q + l ∧ l = totalBytes s % 64 :=
      ⟨totalBytes s / 64, totalBytes s % 64, by omega, rfl⟩
    have h2 : l < 64 := by omega
    rw [hq, packedLens_partial (by omega) h2] at hl
    rw [hq, absorb_openTail hwf hin hl (by omega) h2 hn hn' hd]

end Sys2Proof.Machine
end

