-- ==== Sys2Proof/Laws/Schedule.lean ====
section
/-! SUPPORT. The words `LOAD` and `EXPAND` leave in the schedule (R115, R116), and that they do not depend on
what `W` held before (R117). -/

namespace Sys2Proof.Machine

theorem foldl_finRange_take_succ {α : Type} {n k : Nat} (f : α → Fin n → α) (a : α) (hk : k < n) :
    ((List.finRange n).take (k + 1)).foldl f a = f (((List.finRange n).take k).foldl f a) ⟨k, hk⟩ := by
  rw [List.take_add_one, List.foldl_append]
  simp [hk]

theorem loadWords_take (m : List Byte) (w : Vector Word 80) {k : Nat} (hk : k ≤ 16) (i : Fin 80) :
    (((List.finRange 16).take k).foldl (loadWord m) w)[i] = if i.val < k then blockWord m i else w[i] := by
  induction k with
  | zero => simp
  | succ k ih =>
    rw [foldl_finRange_take_succ _ _ (by omega), loadWord]
    have := ih (by omega)
    simp only [Fin.getElem_fin, Vector.getElem_set] at this ⊢
    split
    · rename_i h
      rw [if_pos (by omega), ← h]
    · rw [this]
      split
      · rw [if_pos (by omega)]
      · rw [if_neg (by omega)]

/-- What `LOAD` leaves in each word (R115). -/
theorem loadWords_getElem (m : List Byte) (w : Vector Word 80) (i : Fin 80) :
    (loadWords m w)[i] = if i.val < 16 then blockWord m i else w[i] := by
  have := loadWords_take m w (k := 16) (by omega) i
  rwa [List.take_of_length_le (by simp)] at this

/-- The sum of `EXPAND` for word `i` (R116). -/
def expandSum (w : Vector Word 80) (i : Fin 80) (h : 16 ≤ i.val) : Word :=
  rotl32 (w[i.val - 3] ^^^ w[i.val - 8] ^^^ w[i.val - 14] ^^^ w[i.val - 16]) 1

/-- The first `k` assignments of `EXPAND`. -/
def expandTo (w : Vector Word 80) (k : Nat) : Vector Word 80 := ((List.finRange 64).take k).foldl expandWord w

theorem expandTo_succ (w : Vector Word 80) {k : Nat} (hk : k < 64) :
    expandTo w (k + 1) = expandWord (expandTo w k) ⟨k, hk⟩ := foldl_finRange_take_succ _ _ hk

theorem expandTo_all (w : Vector Word 80) : expandTo w 64 = expandWords w := by
  rw [expandTo, List.take_of_length_le (by simp), expandWords]

theorem expandTo_getElem (w : Vector Word 80) {k : Nat} (hk : k ≤ 64) (i : Fin 80) :
    (∀ h : 16 ≤ i.val, i.val < 16 + k → (expandTo w k)[i] = expandSum (expandTo w k) i h) ∧
      ((i.val < 16 ∨ 16 + k ≤ i.val) → (expandTo w k)[i] = w[i]) := by
  induction k generalizing i with
  | zero => exact ⟨fun _ _ => by omega, fun _ => rfl⟩
  | succ k ih =>
    rw [expandTo_succ w (show k < 64 by omega)]
    have ih := fun i => ih (by omega) i
    generalize expandTo w k = e at ih ⊢
    have hother : ∀ j (hj : j < 80), j ≠ k + 16 → (expandWord e ⟨k, by omega⟩)[j] = e[j] := by
      intro j hj hne
      rw [expandWord, Vector.getElem_set, if_neg (Ne.symm hne)]
    refine ⟨fun h hlt => ?_, fun h => ?_⟩
    · have hsum : expandSum (expandWord e ⟨k, by omega⟩) i h = expandSum e i h := by
        rw [expandSum, expandSum, hother, hother, hother, hother] <;> omega
      rw [hsum]
      by_cases hi : i.val = k + 16
      · have : (expandWord e ⟨k, by omega⟩)[i] =
            rotl32 (e[k + 13] ^^^ e[k + 8] ^^^ e[k + 2] ^^^ e[k]) 1 := by
          simp only [Fin.getElem_fin, expandWord, Vector.getElem_set, hi, if_true]
        rw [this, expandSum]
        congr <;> omega
      · rw [Fin.getElem_fin, hother _ _ hi]
        exact (ih i).1 h (by omega)
    · rw [Fin.getElem_fin, hother _ _ (by omega)]
      exact (ih i).2 (by omega)

/-- What `EXPAND` leaves in each of the words 16..79, in terms of the words it leaves before them (R116). -/
theorem expandWords_getElem (w : Vector Word 80) (i : Fin 80) (h : 16 ≤ i.val) :
    (expandWords w)[i] = expandSum (expandWords w) i h := by
  simpa only [expandTo_all] using (expandTo_getElem w (k := 64) (by omega) i).1 h (by omega)

/-- `EXPAND` leaves the words of the block alone. -/
theorem expandWords_low (w : Vector Word 80) (i : Fin 80) (h : i.val < 16) : (expandWords w)[i] = w[i] := by
  simpa only [expandTo_all] using (expandTo_getElem w (k := 64) (by omega) i).2 (.inl h)

/-- The expanded schedule depends on the words of the block only (R117). -/
theorem expandWords_congr {w₁ w₂ : Vector Word 80} (h : ∀ i : Fin 80, i.val < 16 → w₁[i] = w₂[i]) :
    expandWords w₁ = expandWords w₂ := by
  have key : ∀ n, ∀ i : Fin 80, i.val = n → (expandWords w₁)[i] = (expandWords w₂)[i] := by
    intro n
    induction n using Nat.strong_induction_on with
    | _ n ih =>
      intro i hi
      by_cases h16 : i.val < 16
      · rw [expandWords_low _ _ h16, expandWords_low _ _ h16, h i h16]
      · have e : ∀ j (hj : j < 80), j < n → (expandWords w₁)[j] = (expandWords w₂)[j] :=
          fun j hj hlt => ih j hlt ⟨j, hj⟩ rfl
        rw [expandWords_getElem _ _ (by omega), expandWords_getElem _ _ (by omega), expandSum, expandSum,
          e _ _ (by omega), e _ _ (by omega), e _ _ (by omega), e _ _ (by omega)]
  exact Vector.ext fun i hi => key i ⟨i, hi⟩ rfl

/-- `LOAD` then `EXPAND` give the schedule of the block, whatever `W` held (R117). -/
theorem schedule_eq (m : List Byte) (w : Vector Word 80) : expandWords (loadWords m w) = schedule m :=
  expandWords_congr fun i hi => by
    rw [loadWords_getElem, loadWords_getElem, if_pos hi, if_pos hi]

end Sys2Proof.Machine
end

