-- ==== Sys2Proof/Laws/Walk.lean ====
section
/-! SUPPORT. What the rounds, one pass of the block walk and the whole walk do to `H`, and that they touch
nothing but `H` and the datapath (R128, R142). -/

namespace Sys2Proof.Machine

/-- A view of the state that no round changes is the same after any number of rounds. -/
theorem rounds_keeps {α : Type} (f : State → α) (hf : ∀ s, f (microRound s) = f s) (k : Nat) (s : State) :
    f (rounds k s) = f s := by
  induction k generalizing s with
  | zero => rfl
  | succ k ih => rw [rounds, ih, hf]

/-- Rounds change the datapath only. -/
theorem rounds_eq (k : Nat) (s : State) : rounds k s = { s with tr := (rounds k s).tr } := by
  induction k generalizing s with
  | zero => rfl
  | succ k ih =>
    rw [rounds, ih]
    rfl

@[simp] theorem rounds_h (k : Nat) (s : State) : (rounds k s).h = s.h := rounds_keeps (·.h) (fun _ => rfl) k s
@[simp] theorem rounds_tr_w (k : Nat) (s : State) : (rounds k s).tr.w = s.tr.w :=
  rounds_keeps (·.tr.w) (fun _ => rfl) k s
@[simp] theorem rounds_tr_blk (k : Nat) (s : State) : (rounds k s).tr.blk = s.tr.blk :=
  rounds_keeps (·.tr.blk) (fun _ => rfl) k s
@[simp] theorem rounds_tr_nb (k : Nat) (s : State) : (rounds k s).tr.nb = s.tr.nb :=
  rounds_keeps (·.tr.nb) (fun _ => rfl) k s
@[simp] theorem rounds_tr_ml (k : Nat) (s : State) : (rounds k s).tr.ml = s.tr.ml :=
  rounds_keeps (·.tr.ml) (fun _ => rfl) k s

theorem finRange_drop {n i : Nat} (h : i < n) : (List.finRange n).drop i = ⟨i, h⟩ :: (List.finRange n).drop (i + 1) := by
  rw [List.drop_eq_getElem_cons (by simpa using h)]
  simp

theorem nextRound_val {t : Fin 80} (h : t.val < 79) : (nextRound t).val = t.val + 1 := by
  simp [nextRound, h]

/-- The rounds from round `i` to the last, on the working registers (R123). -/
theorem rounds_tr_a {k i : Nat} {s : State} (hi : i + k = 80) (ht : s.tr.t.val = i ∨ k = 0) :
    (rounds k s).tr.a = ((List.finRange 80).drop i).foldl (fun a t => roundWork t s.tr.w a) s.tr.a := by
  induction k generalizing i s with
  | zero => rw [List.drop_of_length_le (by simp; omega)]; rfl
  | succ k ih =>
    have ht : s.tr.t.val = i := by omega
    rw [rounds, finRange_drop (show i < 80 by omega), List.foldl_cons,
      ih (i := i + 1) (by omega)
        (if h : k = 0 then .inr h else .inl (by rw [microRound_tr_t, nextRound_val (by omega), ht]))]
    simp only [microRound_tr_w, microRound_tr_a]
    rw [show s.tr.t = ⟨i, by omega⟩ from Fin.ext ht]

/-- `INIT` and the eighty rounds (R128). -/
theorem eightyRounds_eq (s : State) :
    (rounds 80 (microInit s)).tr.a = eightyRounds s.tr.w s.h := by
  rw [rounds_tr_a (i := 0) rfl (.inl rfl)]
  rfl

/-- `INIT`, the eighty rounds and `FOLD` on a filled schedule (R120, R123, R124). -/
theorem foldRounds_eq (s : State) :
    ∃ a temp t f,
      microFold (rounds 80 (microInit s)) =
        { s with
          h := foldWork s.h (eightyRounds s.tr.w s.h)
          tr := { s.tr with
            a := a, temp := temp, t := t, fstep := f
            blk := if s.tr.blk + 1 < s.tr.nb then s.tr.blk + 1 else s.tr.blk } } := by
  have ha := eightyRounds_eq s
  have hw : (rounds 80 (microInit s)).tr.w = s.tr.w := by rw [rounds_tr_w, microInit_tr_w]
  have hblk : (rounds 80 (microInit s)).tr.blk = s.tr.blk := by rw [rounds_tr_blk, microInit_tr_blk]
  have hnb : (rounds 80 (microInit s)).tr.nb = s.tr.nb := by rw [rounds_tr_nb, microInit_tr_nb]
  have hml : (rounds 80 (microInit s)).tr.ml = s.tr.ml := by rw [rounds_tr_ml, microInit_tr_ml]
  have hr : rounds 80 (microInit s) = { s with tr := (rounds 80 (microInit s)).tr } :=
    (rounds_eq 80 (microInit s)).trans (by rw [microInit])
  generalize rounds 80 (microInit s) = u at *
  generalize eightyRounds s.tr.w s.h = e at *
  refine ⟨u.tr.a, u.tr.temp, u.tr.t, if s.tr.blk + 1 < s.tr.nb then .load else .fold, ?_⟩
  rw [microFold, hr]
  simp only [moreBlocks, decide_eq_true_eq, ha, hw, hblk, hnb, hml]

/-- What one pass of the block walk answers: `H <- compress(H, block BLK)`, and nothing else but the datapath
changes (R128). -/
theorem blockPass_eq {s : State} (h : s.tr.blk < nchunks s) :
    ∃ w a temp t f,
      blockPass s = .next
        { s with
          h := compress s.h (readRange s.mem (64 * s.tr.blk) 64)
          tr := { s.tr with
            w := w, a := a, temp := temp, t := t, fstep := f
            blk := if s.tr.blk + 1 < s.tr.nb then s.tr.blk + 1 else s.tr.blk } } := by
  have hm : (List.range 64).map (fun j => chunkByte s s.tr.blk (0 + j)) = readRange s.mem (64 * s.tr.blk) 64 := by
    simp only [Nat.zero_add]
    exact chunkData_eq s s.tr.blk 64
  rw [blockPass, microLoad, memRead_inside h (by simp [chunkCap])]
  simp only [andThen_next, chunkCap, hm, microExpand, schedule_eq, compress]
  generalize schedule _ = w
  obtain ⟨a, temp, t, f, hf⟩ := foldRounds_eq { s with tr := { s.tr with w := w, fstep := .init } }
  exact ⟨w, a, temp, t, f, by rw [hf]⟩

theorem compressAll_cons (h : Words5) (m : List Byte) (ms : List (List Byte)) :
    compressAll h (m :: ms) = compressAll (compress h m) ms := by
  rw [compressAll, List.foldl_cons, compressAll]

/-- What the whole walk answers: every block is folded into `H`, in order (R142), and nothing else but the
datapath changes. -/
theorem walkBlocks_eq {k : Nat} {s : State} (hnb : s.tr.nb = nchunks s) (hk : k = 0 ∨ s.tr.blk + k = s.tr.nb) :
    ∃ r, walkBlocks k s = .next
      { s with
        h := compressAll s.h (splitBlocks k (readRange s.mem (64 * s.tr.blk) (64 * k)))
        tr := r } := by
  unfold nchunks at hnb
  induction k generalizing s with
  | zero => exact ⟨s.tr, rfl⟩
  | succ k ih =>
    obtain ⟨w, a, temp, t, f, hp⟩ := blockPass_eq (s := s) (by unfold nchunks; omega)
    rw [walkBlocks, hp, andThen_next]
    generalize hc : compress s.h (readRange s.mem (64 * s.tr.blk) 64) = h'
    obtain ⟨r, hr⟩ := ih (s := { s with
          h := h'
          tr := { s.tr with
            w := w, a := a, temp := temp, t := t, fstep := f
            blk := if s.tr.blk + 1 < s.tr.nb then s.tr.blk + 1 else s.tr.blk } })
      hnb (by
        rcases Nat.eq_zero_or_pos k with h | h
        · exact .inl h
        · right
          show (if s.tr.blk + 1 < s.tr.nb then s.tr.blk + 1 else s.tr.blk) + k = s.tr.nb
          rw [if_pos (by omega)]
          omega)
    refine ⟨r, hr.trans ?_⟩
    rw [show 64 * (k + 1) = 64 + 64 * k by omega, readRange_add, splitBlocks,
      List.take_left' (readRange_length _ _ _), List.drop_left' (readRange_length _ _ _), compressAll_cons, hc]
    rcases Nat.eq_zero_or_pos k with h | h
    · subst h
      simp only [splitBlocks]
    · simp only [if_pos (show s.tr.blk + 1 < s.tr.nb by omega),
        show 64 * (s.tr.blk + 1) = 64 * s.tr.blk + 64 by omega]

end Sys2Proof.Machine
end

