-- ==== Sys2Proof/Laws/Exec.lean ====
section
/-! SUPPORT. One inversion lemma for each command, the micro-step `PAD` and the step, true of every state; later
proofs cite these and do not unfold the meanings. -/

namespace Sys2Proof.Machine

theorem execCreate_cases {s t : State} (h : execCreate s = .next t) :
    (s.phase = .absent ∧ t = respondOk none (freshInstance s)) ∨
      (s.phase ≠ .absent ∧ t = raise .stateError s) := by
  unfold execCreate at h
  split at h
  · exact .inl ⟨‹_›, (Host.Outcome.next.inj h).symm⟩
  · exact .inr ⟨‹_›, (Host.Outcome.next.inj h).symm⟩

theorem execDestroy_cases {s t : State} (h : execDestroy s = .next t) :
    (s.phase = .absent ∧ t = raise .stateError s) ∨
      (s.phase ≠ .absent ∧ t = respondOk none (releaseInstance s)) := by
  unfold execDestroy at h
  split at h
  · exact .inl ⟨‹_›, (Host.Outcome.next.inj h).symm⟩
  · exact .inr ⟨‹_›, (Host.Outcome.next.inj h).symm⟩

theorem memWrite_frame {s t : State} {k o n : Nat} {v : List Byte} (h : memWrite s k o n v = .next t) :
    t = { s with mem := t.mem } := by
  obtain ⟨-, -, -, rfl⟩ := memWrite_eq_next h
  rfl

/-- `absorb` changes chunk memory and the lengths only, in every state (R97). -/
theorem absorb_frame {s t : State} {n : Nat} {d : List Byte} (h : absorb n d s = .next t) :
    t = { s with mem := t.mem, lens := t.lens } := by
  have hopen : openTail s = { s with mem := (openTail s).mem, lens := (openTail s).lens } := by
    unfold openTail
    split
    · rw [newChunk]
    · rfl
  unfold absorb at h
  simp only at h
  generalize openTail s = o at h hopen
  unfold fillTail at h
  obtain ⟨u, hu, h⟩ := andThen_eq_next.mp h
  have hu := memWrite_frame hu
  split at h
  · unfold spill at h
    obtain ⟨v, hv, h⟩ := andThen_eq_next.mp h
    have hv := memWrite_frame hv
    obtain rfl := Host.Outcome.next.inj h
    rw [setLen, hv, newChunk, setLen, hu, hopen]
  · obtain rfl := Host.Outcome.next.inj h
    rw [setLen, hu, hopen]

theorem execAppend_cases {s t : State} {n : Nat} {d : List Byte} (h : execAppend n d s = .next t) :
    (s.phase ≠ .accum ∧ t = raise .stateError s) ∨
      (s.phase = .accum ∧ 64 < n ∧ t = raise .oversizedChunk s) ∨
      (s.phase = .accum ∧ n ≤ 64 ∧ 2 ^ 61 - 1 < totalBytes s + n ∧ t = raise .lengthOverflow s) ∨
      (s.phase = .accum ∧ n ≤ 64 ∧ totalBytes s + n ≤ 2 ^ 61 - 1 ∧ wouldExceedCapacity s n = true ∧
        t = raise .bufferFull s) ∨
      (s.phase = .accum ∧ n ≤ 64 ∧ totalBytes s + n ≤ 2 ^ 61 - 1 ∧ wouldExceedCapacity s n = false ∧
        ((n = 0 ∧ t = respondOk none s) ∨
          (0 < n ∧ ∃ u, absorb n d s = .next u ∧ t = respondOk none u))) := by
  unfold execAppend at h
  simp only [maxAppend, maxBytes, ne_eq, ite_not] at h
  split at h
  · rename_i h1
    split at h
    · exact .inr (.inl ⟨h1, ‹_›, (Host.Outcome.next.inj h).symm⟩)
    · split at h
      · exact .inr (.inr (.inl ⟨h1, by omega, ‹_›, (Host.Outcome.next.inj h).symm⟩))
      · split at h
        · exact .inr (.inr (.inr (.inl ⟨h1, by omega, by omega, ‹_›, (Host.Outcome.next.inj h).symm⟩)))
        · rename_i h4
          refine .inr (.inr (.inr (.inr ⟨h1, by omega, by omega, by simpa using h4, ?_⟩)))
          split at h
          · exact .inl ⟨‹_›, (Host.Outcome.next.inj h).symm⟩
          · obtain ⟨u, hu, h⟩ := andThen_eq_next.mp h
            exact .inr ⟨by omega, u, hu, (Host.Outcome.next.inj h).symm⟩
  · exact .inl ⟨‹_›, (Host.Outcome.next.inj h).symm⟩

/-- `PAD` changes chunk memory, the lengths and the control state only, in every state. -/
theorem microPad_frame {s t : State} (h : microPad s = .next t) :
    t = { s with mem := t.mem, lens := t.lens, tr := t.tr } := by
  unfold microPad at h
  obtain ⟨u, hu, h⟩ := andThen_eq_next.mp h
  obtain ⟨v, hv, h⟩ := andThen_eq_next.mp h
  obtain rfl := Host.Outcome.next.inj h
  have hv := memWrite_frame hv
  have hu : u = { s with mem := u.mem, lens := u.lens } := by
    unfold writeMarker at hu
    split at hu
    · rw [memWrite_frame hu]
    · split at hu
      · obtain ⟨x, hx, hu⟩ := andThen_eq_next.mp hu
        obtain ⟨y, hy, hu⟩ := andThen_eq_next.mp hu
        obtain rfl := Host.Outcome.next.inj hu
        rw [newChunk, memWrite_frame hy, memWrite_frame hx]
      · rw [memWrite_frame hu, newChunk]
  rw [startWalk, hv, hu]

/-- One pass of the block walk changes `H` and the datapath only, in every state. -/
theorem blockPass_frame {s t : State} (h : blockPass s = .next t) : t = { s with h := t.h, tr := t.tr } := by
  unfold blockPass at h
  obtain ⟨u, hu, h⟩ := andThen_eq_next.mp h
  unfold microLoad at hu
  obtain ⟨m, -, hu⟩ := andThen_eq_next.mp hu
  obtain rfl := Host.Outcome.next.inj hu
  obtain rfl := Host.Outcome.next.inj h
  rw [microFold, rounds_eq, microInit, microExpand]

/-- The block walk changes `H` and the datapath only, in every state. -/
theorem walkBlocks_frame {k : Nat} {s t : State} (h : walkBlocks k s = .next t) :
    t = { s with h := t.h, tr := t.tr } := by
  induction k generalizing s with
  | zero =>
    obtain rfl := Host.Outcome.next.inj h
    rfl
  | succ k ih =>
    obtain ⟨u, hu, h⟩ := andThen_eq_next.mp h
    rw [ih h, blockPass_frame hu]

theorem execFinalize_cases {s t : State} (h : execFinalize s = .next t) :
    (s.phase ≠ .accum ∧ t = raise .stateError s) ∨
      (s.phase = .accum ∧ nchunks s = 0 ∧ t = raise .emptyInput s) ∨
      (s.phase = .accum ∧ nchunks s ≠ 0 ∧ ∃ u v, microPad (latchLength s) = .next u ∧
        walkBlocks u.tr.nb u = .next v ∧ t = finishFinalize v) := by
  unfold execFinalize at h
  simp only [ne_eq, ite_not] at h
  split at h
  · split at h
    · exact .inr (.inl ⟨‹_›, ‹_›, (Host.Outcome.next.inj h).symm⟩)
    · obtain ⟨u, hu, h⟩ := andThen_eq_next.mp h
      obtain ⟨v, hv, h⟩ := andThen_eq_next.mp h
      exact .inr (.inr ⟨‹_›, ‹_›, u, v, hu, hv, (Host.Outcome.next.inj h).symm⟩)
  · exact .inl ⟨‹_›, (Host.Outcome.next.inj h).symm⟩

/-- What one step can do: idle, one command, an illegal word, a read of the digest port, or a reset. -/
theorem step_cases {s t : State} (h : step s = .next t) :
    (s.inputs = [] ∧ t = s) ∨
      (∃ p rest i, s.inputs = .command p :: rest ∧ decode p = .command i ∧
        exec i (withInputs s rest) = .next t) ∨
      (∃ p rest why, s.inputs = .command p :: rest ∧ decode p = .illegal why ∧
        t = raiseIllegalCommand (withInputs s rest)) ∨
      (∃ rest, s.inputs = .readDigest :: rest ∧ s.phase = .done ∧
        t = { withInputs s rest with hostRead := some (digestOf s.h) }) ∨
      (∃ rest, s.inputs = .reset :: rest ∧ t = applyReset (withInputs s rest)) ∨
      (∃ p rest, s.inputs = .resetDuring p :: rest ∧ t = abandonCommand p (withInputs s rest)) := by
  unfold step at h
  split at h
  · exact .inl ⟨‹_›, (Host.Outcome.next.inj h).symm⟩
  · rename_i p rest hi
    unfold stepCommand at h
    split at h
    · exact .inr (.inl ⟨p, rest, _, hi, ‹_›, h⟩)
    · exact .inr (.inr (.inl ⟨p, rest, _, hi, ‹_›, (Host.Outcome.next.inj h).symm⟩))
  · rename_i rest hi
    by_cases hd : s.phase = .done
    · rw [readDigestPort, show digestPort (withInputs s rest) = some (digestOf s.h) from if_pos hd] at h
      exact .inr (.inr (.inr (.inl ⟨rest, hi, hd, (Host.Outcome.next.inj h).symm⟩)))
    · rw [readDigestPort, show digestPort (withInputs s rest) = none from if_neg hd] at h
      cases h
  · rename_i rest hi
    exact .inr (.inr (.inr (.inr (.inl ⟨rest, hi, (Host.Outcome.next.inj h).symm⟩))))
  · rename_i p rest hi
    exact .inr (.inr (.inr (.inr (.inr ⟨p, rest, hi, (Host.Outcome.next.inj h).symm⟩))))

end Sys2Proof.Machine
end

