-- ==== Sys2Proof/Laws/Padder.lean ====
section
/-! SUPPORT. What `PAD` does to a packed chunk sequence (R105 to R112), and that the chunks then hold the
padded message (R111). -/

namespace Sys2Proof.Machine

@[simp] theorem be64_length (ml : BitVec 64) : (be64 ml).length = 8 := by simp [be64]

theorem Memory.writeBytes_zeros {m : Memory} (h : wf m = true) {a n : Nat}
    (hz : ∀ b, a ≤ b → readByte m b = 0#8) : writeBytes m a (List.replicate n 0#8) = m := by
  refine ext_of_wf (wf_writeBytes h _ _) h fun b => ?_
  rw [readByte_writeBytes h]
  split
  · rename_i hb
    rw [List.length_replicate] at hb
    rw [hz b hb.1, List.getD_replicate]
    omega
  · rfl

/-- The `len` of every chunk after `PAD` on a message of `x` bytes: none changes, and the chunk `PAD` may make
keeps 0 (R112). -/
def paddedLens (x : Nat) : List Nat := packedLens x ++ List.replicate (blockCount x - (x + 63) / 64) 0

theorem paddedLens_length (x : Nat) : (paddedLens x).length = blockCount x := by
  simp [paddedLens, blockCount]
  omega

/-- The bytes of chunk memory after `PAD` on a message of `x` bytes: the marker directly after the message and
the length field at the end of the last block. -/
def paddedMem (m : Memory) (x : Nat) (ml : BitVec 64) : Memory :=
  Memory.writeBytes (Memory.writeBytes m x [marker]) (64 * ((x + 8) / 64) + 56) (be64 ml)

/-- The marker case of `PAD` (R107, R108, R109). -/
theorem writeMarker_packed {s : State} (hwf : Memory.wf s.mem = true)
    (hin : ∀ c ∈ s.mem, c.1 < 64 * nchunks s) (hp : ChunksPacked s) (hN : 1 ≤ nchunks s) :
    writeMarker (nchunks s - 1) (chunkLen s (nchunks s - 1)) s = .next
      { s with
        mem := Memory.writeBytes s.mem (totalBytes s) [marker]
        lens := paddedLens (totalBytes s) } := by
  have hN' := hp.nchunks_eq
  have hlens := hp.lens_eq
  have hl := hp.chunkLen_eq (k := nchunks s - 1) (by omega)
  have hz : ∀ a, totalBytes s ≤ a → Memory.readByte s.mem a = 0#8 := fun a => hp.zero_above hin
  generalize totalBytes s = x at *
  generalize hk : nchunks s - 1 = k at *
  generalize chunkLen s k = l at *
  have hx : x = 64 * k + l := by omega
  have hm : Memory.wf (Memory.writeBytes s.mem x [marker]) = true := Memory.wf_writeBytes hwf _ _
  unfold writeMarker
  split
  · rename_i h56
    rw [memWrite_inside (by omega) (by omega) (by simp), hx]
    have : paddedLens (64 * k + l) = s.lens := by
      rw [hlens, hx, paddedLens, blockCount, show (64 * k + l + 8) / 64 + 1 - (64 * k + l + 63) / 64 = 0 by omega]
      simp
    rw [this]
  · rename_i h56
    have hpad : paddedLens x = s.lens ++ [0] := by
      rw [hlens, paddedLens, blockCount, show (x + 8) / 64 + 1 - (x + 63) / 64 = 1 by omega]
      rfl
    split
    · rename_i h63
      have hin' : ∀ c ∈ Memory.writeBytes s.mem x [marker], c.1 < 64 * nchunks s := by
        intro c hc
        rcases Memory.mem_writeBytes hc with h | h
        · exact hin c h
        · simp at h
          omega
      have hz' : ∀ b, x + 1 ≤ b → Memory.readByte (Memory.writeBytes s.mem x [marker]) b = 0#8 := by
        intro b hb
        rw [Memory.readByte_writeBytes hwf, if_neg (by simp; omega)]
        exact hz b (by omega)
      rw [memWrite_inside (by omega) (by omega) (by simp)]
      simp only [andThen_next]
      rw [memWrite_inside (by simp only [nchunks] at *; omega) (by omega) (by simp)]
      simp only [andThen_next, ← hx, show 64 * k + (l + 1) = x + 1 by omega]
      rw [Memory.writeBytes_zeros hm hz', newChunk_eq hm (by simpa [nchunks] using hin'), hpad]
    · rw [newChunk_eq hwf hin, memWrite_inside (by simp [nchunks]) (by omega) (by simp), hpad,
        show 64 * nchunks s + 0 = x by omega]

/-- What `PAD` answers on a packed chunk sequence that holds at least one byte (R105). -/
theorem microPad_packed {s : State} (hwf : Memory.wf s.mem = true)
    (hin : ∀ c ∈ s.mem, c.1 < 64 * nchunks s) (hp : ChunksPacked s) (hN : 1 ≤ nchunks s) :
    microPad s = .next (startWalk
      { s with
        mem := paddedMem s.mem (totalBytes s) s.tr.ml
        lens := paddedLens (totalBytes s) }) := by
  have hlen := paddedLens_length (totalBytes s)
  rw [microPad, writeMarker_packed hwf hin hp hN]
  simp only [andThen_next, writeLengthField, nchunks, hlen]
  rw [memWrite_inside (by simp [nchunks, hlen, blockCount]) (by simp [lenFieldOff]) (by simp)]
  simp only [andThen_next, blockCount, Nat.add_sub_cancel, paddedMem, lenFieldOff]

theorem zeroFill_eq (x : Nat) : zeroFill x = 64 * ((x + 8) / 64) + 55 - x := by
  unfold zeroFill
  omega

/-- The bytes of the padded memory, in order (R111). -/
theorem readRange_paddedMem {m : Memory} (hwf : Memory.wf m = true) {x : Nat}
    (hz : ∀ a, x ≤ a → Memory.readByte m a = 0#8) (ml : BitVec 64) :
    readRange (paddedMem m x ml) 0 (64 * blockCount x) =
      readRange m 0 x ++ [marker] ++ List.replicate (zeroFill x) 0#8 ++ be64 ml := by
  have hm : Memory.wf (Memory.writeBytes m x [marker]) = true := Memory.wf_writeBytes hwf _ _
  have hb : ∀ a, Memory.readByte (paddedMem m x ml) a =
      if 64 * ((x + 8) / 64) + 56 ≤ a ∧ a < 64 * ((x + 8) / 64) + 56 + 8 then
        (be64 ml).getD (a - (64 * ((x + 8) / 64) + 56)) 0#8
      else if a = x then marker else Memory.readByte m a := by
    intro a
    rw [paddedMem, Memory.readByte_writeBytes hm, be64_length, Memory.readByte_writeBytes hwf]
    congr 1
    by_cases ha : a = x
    · simp [ha]
    · rw [if_neg (by simp; omega), if_neg ha]
  rw [show 64 * blockCount x = x + (1 + (zeroFill x + 8)) by rw [zeroFill_eq, blockCount]; omega, readRange_add,
    readRange_add, readRange_add, List.append_assoc, List.append_assoc]
  have hzf := zeroFill_eq x
  congr 1
  · exact readRange_congr fun j hj => by rw [hb, if_neg (by omega), if_neg (by omega)]
  congr 1
  · simp [readRange, hb]
    omega
  congr 1
  · apply List.ext_getElem
    · simp
    · intro j hj _
      rw [readRange_getElem, hb, if_neg, if_neg, hz]
      · simp
      · omega
      · omega
      · simp at hj
        omega
  · apply List.ext_getElem
    · simp
    · intro j hj hj'
      simp at hj hj'
      rw [readRange_getElem, hb, if_pos (by omega),
        show 0 + x + 1 + zeroFill x + j - (64 * ((x + 8) / 64) + 56) = j by omega]
      simp [hj']

/-- The padded memory is canonical. -/
theorem wf_paddedMem {m : Memory} (hwf : Memory.wf m = true) (x : Nat) (ml : BitVec 64) :
    Memory.wf (paddedMem m x ml) = true :=
  Memory.wf_writeBytes (Memory.wf_writeBytes hwf _ _) _ _

/-- The padded memory lists nothing beyond its last block. -/
theorem mem_paddedMem {m : Memory} {x : Nat} (hin : ∀ c ∈ m, c.1 < 64 * ((x + 63) / 64)) (ml : BitVec 64) :
    ∀ c ∈ paddedMem m x ml, c.1 < 64 * blockCount x := by
  intro c hc
  rw [blockCount]
  rcases Memory.mem_writeBytes hc with h | h
  · rcases Memory.mem_writeBytes h with h | h
    · have := hin c h
      omega
    · simp at h
      omega
  · simp at h
    omega

end Sys2Proof.Machine
end

