-- ==== Sys2Proof/Laws/Commands.lean ====
section
/-! SUPPORT. What each command answers on a state that meets the invariants, in closed form, and which status can
come from which command; later proofs cite these and do not follow the meanings. -/

namespace Sys2Proof.Machine

/-- A raised status changes nothing but the response and the fault mark (R170). -/
theorem raise_only (e : Status) (s : State) : OnlyAnswers ⟨e, none⟩ s (raise e s) := rfl

theorem respondOk_only (s : State) : OnlyAnswers ⟨.ok, none⟩ s (respondOk none s) := by
  simp [OnlyAnswers, respondOk, answer, Status.marksRun]

/-- The capacity test as arithmetic on bytes (R98, R167). -/
theorem wouldExceedCapacity_iff (s : State) (n : Nat) :
    wouldExceedCapacity s n = true ↔ ∃ m, s.cfg.maxChunks = some m ∧ 64 * m < totalBytes s + n + 64 := by
  unfold wouldExceedCapacity
  cases s.cfg.maxChunks with
  | none => simp
  | some m => simp [chunksFor, chunkCap]; omega

/-- What `APPEND` answers when it is performed (R91, R95). -/
theorem execAppend_packed {s : State} {n : Nat} {d : List Byte} (hI : Inv s) (ha : s.phase = .accum)
    (hd : n ≤ d.length) (hn : n ≤ 64) (hm : totalBytes s + n ≤ 2 ^ 61 - 1)
    (hc : wouldExceedCapacity s n = false) :
    execAppend n d s = .next (respondOk none
      { s with
        mem := Memory.writeBytes s.mem (totalBytes s) (d.take n)
        lens := packedLens (totalBytes s + n) }) := by
  rw [execAppend, if_neg (by simp [ha]), if_neg (by unfold maxAppend; omega), if_neg (by unfold maxBytes; omega),
    if_neg (by simp [hc])]
  split
  · rename_i h0
    subst h0
    simp [Memory.writeBytes, ← (hI.accumPacked ha).lens_eq]
  · rw [absorb_packed hI.memWf hI.memInside (hI.accumPacked ha) (by omega) hn hd, andThen_next]

/-- What a performed `APPEND` of at least one byte leaves, in every state (R97). -/
theorem absorb_answers {s u : State} {n : Nat} {d : List Byte} (h : absorb n d s = .next u) :
    (respondOk none u).phase = s.phase ∧ (respondOk none u).h = s.h ∧ (respondOk none u).tr = s.tr ∧
      (respondOk none u).freeIdx = s.freeIdx ∧ AnswersInRun ⟨.ok, none⟩ s (respondOk none u) := by
  rw [absorb_frame h]
  exact ⟨rfl, rfl, rfl, rfl, rfl, rfl, rfl, rfl, rfl, rfl⟩

/-- What a performed `FINALIZE` answers, in every state (R140, R144). -/
theorem finalize_answers {s u v : State} (hu : microPad (latchLength s) = .next u)
    (hv : walkBlocks u.tr.nb u = .next v) :
    (finishFinalize v).phase = .done ∧ (finishFinalize v).h = v.h ∧
      AnswersInRun ⟨.ok, some (digestOf v.h)⟩ s (finishFinalize v) := by
  rw [walkBlocks_frame hv, microPad_frame hu]
  exact ⟨rfl, rfl, rfl, rfl, rfl, rfl, rfl, rfl⟩

/-- Which command a status can come from (R162, R163, R164, R166, R167). -/
theorem status_source {s t : State} {i : Instr} {e : Status} {dg : Option (BitVec 160)} (h : exec i s = .next t)
    (hp : t.port = some ⟨e, dg⟩) :
    (e = .oversizedChunk → ∃ n d, i = .append n d ∧ 64 < n) ∧
    (e = .lengthOverflow → ∃ n d, i = .append n d ∧ 2 ^ 61 - 1 < totalBytes s + n) ∧
    (e = .bufferFull → ∃ n d, i = .append n d ∧ wouldExceedCapacity s n = true) ∧
    (e = .emptyInput → i = .finalize ∧ nchunks s = 0) ∧ e ≠ .illegalCommand := by
  cases i with
  | create => rcases execCreate_cases h with ⟨a, rfl⟩ | ⟨a, rfl⟩ <;> (simp at hp; simp [← hp])
  | destroy => rcases execDestroy_cases h with ⟨a, rfl⟩ | ⟨a, rfl⟩ <;> (simp at hp; simp [← hp])
  | finalize =>
    rcases execFinalize_cases h with ⟨a, rfl⟩ | ⟨a, b, rfl⟩ | ⟨a, b, u, v, hu, hv, rfl⟩
    · simp at hp; simp [← hp]
    · simp at hp; simp [← hp, b]
    · rw [(finalize_answers hu hv).2.2.1] at hp
      cases hp
      simp
  | append n d =>
    rcases execAppend_cases h with ⟨a, rfl⟩ | ⟨a, b, rfl⟩ | ⟨a, b, c, rfl⟩ | ⟨a, b, c, f, rfl⟩ |
      ⟨a, b, c, f, ⟨g, rfl⟩ | ⟨g, u, hu, rfl⟩⟩
    iterate 5 (simp at hp; obtain ⟨rfl, rfl⟩ := hp; simp_all)
    cases hp
    simp

/-- `PAD` from the latched length, on a state that meets the invariants (R105, R106). -/
theorem microPad_latched {s : State} (hI : Inv s) (ha : s.phase = .accum) (hN : 1 ≤ nchunks s) :
    microPad (latchLength s) = .next (startWalk
      { latchLength s with
        mem := paddedMem s.mem (totalBytes s) (totalBits s)
        lens := paddedLens (totalBytes s) }) := by
  have hp := hI.accumPacked ha
  rw [microPad_packed (s := latchLength s) hI.memWf hI.memInside ⟨hp.lenBounds, hp.interiorFull, hp.unusedZero⟩ hN]
  rfl

/-- What `FINALIZE` answers when it is performed: the padded chunks, and `H` the digest of the message (R142,
R144, R149). -/
theorem execFinalize_packed {s : State} (hI : Inv s) (ha : s.phase = .accum) (hN : 1 ≤ nchunks s) :
    ∃ r, execFinalize s = .next (finishFinalize
      { s with
        mem := paddedMem s.mem (totalBytes s) (totalBits s)
        lens := paddedLens (totalBytes s)
        h := sha1 (message s)
        tr := r }) := by
  have hp := hI.accumPacked ha
  rw [execFinalize, if_neg (by simp [ha]), if_neg (by omega), microPad_latched hI ha hN, andThen_next]
  have hnb : nchunks { latchLength s with
      mem := paddedMem s.mem (totalBytes s) (totalBits s)
      lens := paddedLens (totalBytes s) } = blockCount (totalBytes s) := by
    simp [nchunks, paddedLens_length]
  obtain ⟨r, hr⟩ := walkBlocks_eq (k := blockCount (totalBytes s)) (s := startWalk { latchLength s with
      mem := paddedMem s.mem (totalBytes s) (totalBits s)
      lens := paddedLens (totalBytes s) }) rfl (.inr (by rw [startWalk_tr_blk, startWalk_tr_nb, hnb, Nat.zero_add]))
  refine ⟨r, ?_⟩
  have hbytes := readRange_paddedMem hI.memWf (x := totalBytes s)
    (fun a h => hp.zero_above hI.memInside h) (totalBits s)
  have hmsg : readRange s.mem 0 (totalBytes s) = message s := hp.message_eq.symm
  rw [show (startWalk { latchLength s with
      mem := paddedMem s.mem (totalBytes s) (totalBits s)
      lens := paddedLens (totalBytes s) }).tr.nb = blockCount (totalBytes s) from hnb, hr, andThen_next]
  simp only [startWalk_mem, startWalk_h, startWalk_tr_blk, latchLength_h, Nat.mul_zero, hbytes, hmsg]
  rw [sha1, hI.accumHash ha, padMessage, hp.message_length]
  rfl

end Sys2Proof.Machine
end

