-- ==== Sys2Proof/Laws/PerInstr.lean ====
section
/-! SUPPORT. One lemma for each constructor of `Instr`: the word the encoder makes belongs to the instruction's
own row of the match and mask table (R62). -/

namespace Sys2Proof.Laws.OpcodeMatch

/-- The command word of `i` matches the row that bears its name, under that row's mask (R62). -/
def Statement (i : Instr) : Prop :=
  ∀ r ∈ opcodeRows, r.mnemonic = i.mnemonic → r.holds (encode i).cmd = true

theorem create : Statement .create := by
  simp [Statement, opcodeRows, Instr.mnemonic, OpcodeRow.holds, encode, commandWord, opCreate]

theorem append (n : Nat) (d : List Byte) : Statement (.append n d) := by
  simp only [Statement, opcodeRows, Instr.mnemonic, OpcodeRow.holds, encode, commandWord, opAppend]
  generalize BitVec.ofNat 8 n = x
  revert x
  decide

theorem finalize : Statement .finalize := by
  simp [Statement, opcodeRows, Instr.mnemonic, OpcodeRow.holds, encode, commandWord, opFinalize]

theorem destroy : Statement .destroy := by
  simp [Statement, opcodeRows, Instr.mnemonic, OpcodeRow.holds, encode, commandWord, opDestroy]

end Sys2Proof.Laws.OpcodeMatch
end

