-- ==== Sys2Proof/Machine/Text.lean ====
section
/-! DEFINITION. The textual forms the spec gives: commands and responses as lines (R70), a digest as words (R7 (e),
R147). The engine does not produce them; they are how programs and test vectors are written. -/

namespace Sys2Proof.Machine

/-- One hexadecimal digit, lower case. -/
def hexDigit (k : Nat) : Char :=
  ['0', '1', '2', '3', '4', '5', '6', '7', '8', '9', 'a', 'b', 'c', 'd', 'e', 'f'].getD (k % 16) '0'

/-- `n` hexadecimal digits of a number, the most significant first. -/
def hexChars (n k : Nat) : List Char := (List.range n).map fun j => hexDigit (k / 16 ^ (n - 1 - j))

/-- Decimal digits of a number below 1000, without leading zeros: every length `n` of R60 is one. -/
def decimalChars (k : Nat) : List Char :=
  if k < 10 then [hexDigit k]
  else if k < 100 then [hexDigit (k / 10), hexDigit (k % 10)]
  else [hexDigit (k / 100), hexDigit (k / 10 % 10), hexDigit (k % 10)]

/-- Two digits for each byte. -/
def bytesChars (b : List Byte) : List Char := b.flatMap fun x => hexChars 2 x.toNat

/-- The line of a command (R70): for `append`, `2·min(n, 64)` digits of the payload, omitted when there are
none. -/
def commandLine (i : Instr) : List Char :=
  match i with
  | .create => "create".toList
  | .append n d =>
    "append ".toList ++ decimalChars n ++ (if n = 0 then [] else ' ' :: bytesChars (d.take (min n 64)))
  | .finalize => "finalize".toList
  | .destroy => "destroy".toList

/-- The command of the short form `append "<text>"` (R70): the payload is the ASCII bytes of the text and `n`
its length. What the unused lanes hold is the model's choice (log entry 17, DESIGN CHOICE, safe). -/
def appendText (text : List Char) : Instr := appendOf (text.map fun c => BitVec.ofNat 8 c.toNat)

/-- The line of a raw word (R70). -/
def wordLine (cmd : BitVec 16) : List Char := "word 0x".toList ++ hexChars 4 cmd.toNat

/-- A digest as five words of eight digits, `H[0]` first (R7 (e), R147). -/
def digestLine (h : Words5) : List Char :=
  hexChars 8 h.w0.toNat ++ ' ' :: hexChars 8 h.w1.toNat ++ ' ' :: hexChars 8 h.w2.toNat ++
    ' ' :: hexChars 8 h.w3.toNat ++ ' ' :: hexChars 8 h.w4.toNat

/-- The name of a status (R161). -/
def statusName (e : Status) : List Char :=
  match e with
  | .ok => "OK".toList
  | .oversizedChunk => "OversizedChunk".toList
  | .emptyInput => "EmptyInput".toList
  | .illegalCommand => "IllegalCommand".toList
  | .stateError => "StateError".toList
  | .lengthOverflow => "LengthOverflow".toList
  | .bufferFull => "BufferFull".toList

/-- The five words of a 160-bit digest. -/
def digestWords (d : BitVec 160) : Words5 :=
  ⟨d.extractLsb' 128 32, d.extractLsb' 96 32, d.extractLsb' 64 32, d.extractLsb' 32 32, d.extractLsb' 0 32⟩

/-- The expected response after a line (R70): `-> <status>`, with the digest where there is one. -/
def responseLine (r : Response) : List Char :=
  "-> ".toList ++ statusName r.status ++
    match r.digest with
    | none => []
    | some d => ' ' :: digestLine (digestWords d)

/-- The encoded form of a line (R70): four digits of the command word, for `append` followed by the payload
bytes. -/
def encodedLine (i : Instr) : List Char :=
  hexChars 4 (encode i).cmd.toNat ++
    match i with
    | .append n d => bytesChars (d.take (min n 64))
    | .create => []
    | .finalize => []
    | .destroy => []

end Sys2Proof.Machine
end

