-- ==== Sys2Proof/Tests/Slice0.lean ====
section
/-! SUPPORT. The tests of this package. Expected values come from spec/95_test_vectors.md, whose section each test
names, or are written out from the encoding tables of spec/30_encoding.md. The second half shows, for every statement
with hypotheses, concrete states and operands that meet them. -/

namespace Sys2Proof.Tests

open Sys2Proof Sys2Proof.Machine

set_option maxRecDepth 100000

/-! ### States the tests start from -/

/-- `n` bytes `a` (0x61). -/
def manyA (n : Nat) : List Byte := List.replicate n 0x61#8

/-- `"abc"` and `"abcde"` (S3, S1 of 95_test_vectors.md). -/
def abc : List Byte := [0x61#8, 0x62#8, 0x63#8]
def abcde : List Byte := [0x61#8, 0x62#8, 0x63#8, 0x64#8, 0x65#8]

/-- An instance that holds the bytes `b`, not finalized. -/
def holding (b : List Byte) : State :=
  { State.reset with
    phase := .accum
    h := initialHash
    mem := Memory.writeBytes [] 0 b
    lens := packedLens b.length }

/-- An instance that was finalized on the message `"a"`. -/
def finished : State :=
  { State.reset with
    phase := .done
    h := sha1 (manyA 1)
    mem := Memory.writeBytes [] 0 (padMessage (manyA 1))
    lens := [1] }

/-- An instance of which only the lengths matter: it claims `x` bytes in one chunk. -/
def claiming (x : Nat) : State := { holding [] with lens := [x] }

/-- The same state with `MAX_CHUNKS = some m`. -/
def limited (m : Nat) (s : State) : State := { s with cfg := ⟨some m⟩ }

/-- The same state with one event of the host next. -/
def facing (e : HostEvent) (s : State) : State := { s with inputs := [e] }

/-- A presented word with zeros on the payload lanes. -/
def word (w : BitVec 16) : PortInput := ⟨w, Vector.replicate 64 0#8⟩

/-- `b` on 64 payload lanes, zeros after it. -/
def lanes (b : List Byte) : List Byte := b ++ List.replicate (64 - b.length) 0#8

/-- The response a command leaves on the port. -/
def responseOf (o : Host.Outcome State Fault Refusal) : Option Response :=
  match o with
  | .next t => t.port
  | _ => none

/-- A command answers a next state of which `p` holds. -/
def leaves (o : Host.Outcome State Fault Refusal) (p : State → Bool) : Bool :=
  match o with
  | .next t => p t
  | _ => false

theorem next_of_leaves {o : Host.Outcome State Fault Refusal} {p : State → Bool} (h : leaves o p = true) :
    ∃ t, o = .next t ∧ p t = true := by
  cases o with
  | next t => exact ⟨t, rfl, h⟩
  | fault r => cases h
  | refused r => cases h

/-! ### WellFormed: one ill-formed term for each check -/

theorem test_wf_refuses_length_256 : (Instr.append 256 (manyA 64)).wf = false := by decide
theorem test_wf_refuses_short_payload : (Instr.append 5 (manyA 63)).wf = false := by decide
theorem test_wf_admits_length_255 : (Instr.append 255 (manyA 64)).wf = true := by decide

/-! ### Decoding: words written out from R61 and R62 (30_encoding.md), fields op then len -/

theorem test_decode_create : decode (word 0b00000001_00000000#16) = .command .create := by decide
theorem test_decode_append_5 :
    decode (word 0b00000010_00000101#16) = .command (.append 5 (List.replicate 64 0#8)) := by decide
theorem test_decode_finalize : decode (word 0b00000011_00000000#16) = .command .finalize := by decide
theorem test_decode_destroy : decode (word 0b00000100_00000000#16) = .command .destroy := by decide
/-- 95_test_vectors.md section 5.1. -/
theorem test_decode_refuses :
    decode (word 0x0001#16) = .illegal .opcode ∧ decode (word 0x01FF#16) = .illegal .reservedLength ∧
      decode (word 0x0301#16) = .illegal .reservedLength ∧ decode (word 0xFFFF#16) = .illegal .opcode := by decide
/-- The payload lane `j` stands in bits `16+8j` up of the word as the opcode table numbers it. -/
theorem test_table_word_payload :
    decodeTableWord 32 0x62610202 = some (.append 2 (lanes [0x61#8, 0x62#8])) := by decide
theorem test_fetched_word_runs_first :
    leaves (step (State.reset.withFetchWord 16 0x0100)) (fun t => t.phase == .accum) = true := by decide

/-! ### Primitives (95_test_vectors.md section 2.1) -/

theorem test_rotl :
    rotl32 0x80000001#32 1 = 0x00000003#32 ∧ rotl32 0x67452301#32 5 = 0xE8A4602C#32 ∧
      rotl32 0xEFCDAB89#32 30 = 0x7BF36AE2#32 ∧ rotl32 0x00000003#32 30 = 0xC0000000#32 := by decide
theorem test_round_function :
    roundF 19 0xEFCDAB89#32 0x98BADCFE#32 0x10325476#32 = 0x98BADCFE#32 ∧
      roundF 20 0xEFCDAB89#32 0x98BADCFE#32 0x10325476#32 = 0x67452301#32 ∧
      roundF 40 0xFFFFFFFF#32 0x12345678#32 0x9ABCDEF0#32 = 0x9ABCDEF8#32 ∧
      roundF 40 0#32 0x12345678#32 0x9ABCDEF0#32 = 0x12345670#32 ∧
      roundF 79 0xEFCDAB89#32 0x98BADCFE#32 0x10325476#32 = 0x67452301#32 := by decide
/-- Section 4: `ML = 0x0123456789ABCDE8`. -/
theorem test_length_field :
    be64 0x0123456789ABCDE8#64 = [0x01#8, 0x23#8, 0x45#8, 0x67#8, 0x89#8, 0xAB#8, 0xCD#8, 0xE8#8] := by decide
/-- Section 2.2: `W[0]`, `W[15]`, `W[16]`, `W[19]` and `W[79]` of the block of `"abcde"`. -/
theorem test_schedule_abcde :
    (schedule (padMessage abcde))[0] = 0x61626364#32 ∧ (schedule (padMessage abcde))[15] = 0x28#32 ∧
      (schedule (padMessage abcde))[16] = 0xC2C4C6C8#32 ∧ (schedule (padMessage abcde))[19] = 0x85898D91#32 ∧
      (schedule (padMessage abcde))[79] = 0xFB82B1EE#32 := by decide +kernel
/-- Section 2.3: round 0 of the block of `"abcde"`. -/
theorem test_round_0_abcde :
    roundWork 0 (schedule (padMessage abcde)) initialHash =
      ⟨0x0116FC17#32, 0x67452301#32, 0x7BF36AE2#32, 0x98BADCFE#32, 0x10325476#32⟩ := by decide +kernel
/-- Section 2.3: the fold after round 79. -/
theorem test_fold_abcde :
    foldWork initialHash ⟨0x9C994956#32, 0x1C307936#32, 0x2A6DEFD9#32, 0xBA1462F8#32, 0xE9DC6144#32⟩ =
      ⟨0x03DE6C57#32, 0x0BFE24BF#32, 0xC328CCD7#32, 0xCA46B76E#32, 0xADAF4334#32⟩ := by decide

/-! ### One step each (95_test_vectors.md sections 3 to 6) -/

theorem test_create_sets_the_constants :
    leaves (exec .create State.reset) (fun t => t.h == initialHash && t.phase == .accum && t.lens == [] &&
      t.port == some ⟨.ok, none⟩) = true := by decide
theorem test_create_twice : responseOf (exec .create (holding abc)) = some ⟨.stateError, none⟩ := by decide +kernel
theorem test_destroy : leaves (exec .destroy (holding abc)) (fun t => t.phase == .absent && t.lens == []) = true := by
  decide +kernel
theorem test_destroy_absent : responseOf (exec .destroy State.reset) = some ⟨.stateError, none⟩ := by decide
/-- B5: 60 bytes, then `f0 f1 … f9`. -/
theorem test_append_spills :
    leaves (exec (.append 10 (lanes [0xF0#8, 0xF1#8, 0xF2#8, 0xF3#8, 0xF4#8, 0xF5#8, 0xF6#8, 0xF7#8, 0xF8#8, 0xF9#8]))
      (holding (manyA 60)))
      (fun t => t.lens == [64, 6] && chunkByte t 0 60 == 0xF0#8 && chunkByte t 0 63 == 0xF3#8 &&
        chunkByte t 1 0 == 0xF4#8 && chunkByte t 1 5 == 0xF9#8 && chunkByte t 1 6 == 0#8) = true := by decide +kernel
/-- B16, B18: the length limit, and the order of the checks. -/
theorem test_append_limits :
    responseOf (exec (.append 1 (manyA 64)) (claiming (2 ^ 61 - 1))) = some ⟨.lengthOverflow, none⟩ ∧
      responseOf (exec (.append 65 (manyA 64)) (claiming (2 ^ 61 - 1))) = some ⟨.oversizedChunk, none⟩ := by
  decide +kernel
/-- Section 5.3: 128 bytes held and `MAX_CHUNKS = some 3`. -/
theorem test_append_buffer_full :
    responseOf (exec (.append 1 (manyA 64)) (limited 3 (holding (manyA 128)))) = some ⟨.bufferFull, none⟩ ∧
      responseOf (exec (.append 0 (manyA 64)) (limited 3 (holding (manyA 128)))) = some ⟨.ok, none⟩ := by decide +kernel
/-- S1 in one step. -/
theorem test_finalize_abcde :
    responseOf (exec .finalize (holding abcde)) =
      some ⟨.ok, some 0x03de6c570bfe24bfc328ccd7ca46b76eadaf4334#160⟩ := by decide +kernel
/-- PD4: 56 bytes `a`, two blocks, the marker in the tail and the length in the new chunk. -/
theorem test_finalize_56 :
    responseOf (exec .finalize (holding (manyA 56))) =
      some ⟨.ok, some 0xc2db330f6083854c99d4b5bfb6e8f29f201be699#160⟩ := by decide +kernel
/-- PD3: 55 bytes, the marker directly before the length field. -/
theorem test_pad_55 :
    leaves (microPad (latchLength (holding (manyA 55)))) (fun t => t.lens == [55] && chunkByte t 0 55 == 0x80#8 &&
      chunkByte t 0 62 == 0x01#8 && chunkByte t 0 63 == 0xB8#8) = true := by decide +kernel
/-- PD7: 64 bytes, the tail untouched. -/
theorem test_pad_64 :
    leaves (microPad (latchLength (holding (manyA 64)))) (fun t => t.lens == [64, 0] && chunkByte t 0 63 == 0x61#8 &&
      chunkByte t 1 0 == 0x80#8 && chunkByte t 1 62 == 0x02#8 && chunkByte t 1 63 == 0#8) = true := by decide +kernel
/-- S3: the digest of `"abc"`. -/
theorem test_sha1_abc :
    sha1 abc = ⟨0xa9993e36#32, 0x4706816a#32, 0xba3e2571#32, 0x7850c26c#32, 0x9cd0d89d#32⟩ := by decide +kernel
/-- R46 on S3: the first and the last digest byte. -/
theorem test_digest_bytes :
    (digestBytes ⟨0xa9993e36#32, 0x4706816a#32, 0xba3e2571#32, 0x7850c26c#32, 0x9cd0d89d#32⟩).take 4 =
      [0xA9#8, 0x99#8, 0x3E#8, 0x36#8] := by decide
/-- 95_test_vectors.md section 6, P1: the line and the encoded form of the second command. -/
theorem test_command_line :
    commandLine (appendText ['a', 'b', 'c']) = "append 3 616263".toList ∧
      encodedLine (appendText ['a', 'b', 'c']) = "0203616263".toList := by decide +kernel
/-- S3 as a response line (R70, R147). -/
theorem test_response_line :
    responseLine ⟨.ok, some 0xa9993e364706816aba3e25717850c26c9cd0d89d#160⟩ =
      "-> OK a9993e36 4706816a ba3e2571 7850c26c 9cd0d89d".toList := by decide +kernel
/-- R24, R145: the digest port. -/
theorem test_digest_port :
    (step (facing .readDigest (holding abc)) = .fault .digestUnspecified) ∧
      leaves (step (facing .readDigest { holding abc with phase := .done }))
        (fun t => t.hostRead == some 0x67452301efcdab8998badcfe10325476c3d2e1f0#160) = true := by
  constructor
  · rfl
  · decide +kernel
/-- R185: a reset during a command. -/
theorem test_reset_during_command :
    leaves (step (facing (.resetDuring (word 0x0300#16)) (holding abc)))
      (fun t => t.phase == .absent && t.port == none && t.observed == []) = true := by decide +kernel

/-! ### The states above meet the invariants -/

/-- Any short enough byte string can be what an instance holds. -/
theorem holding_inv (b : List Byte) (hb : b.length ≤ 2 ^ 61 - 1) : Inv (holding b) where
  cfgWf := rfl
  memWf := Memory.wf_writeBytes rfl _ _
  memInside c hc := by
    rcases Memory.mem_writeBytes hc with h | h
    · cases h
    · simp only [nchunks, holding, packedLens_length]
      omega
  absentEmpty h := by cases h
  accumPacked _ := packed_of_lens (x := b.length) rfl fun a ha => by
    rw [holding, Memory.readByte_writeBytes rfl, if_neg (by omega)]
    rfl
  accumHash _ := rfl
  accumLength _ := by
    rw [totalBytes_of_lens (s := holding b) rfl]
    exact hb
  accumRoom _ m hm := by cases hm
  doneChunks h := by cases h

theorem holding_nchunks (b : List Byte) : nchunks (holding b) = (b.length + 63) / 64 := by
  simp [nchunks, holding]

theorem holding_manyA_inv {n : Nat} (h : n ≤ 2 ^ 61 - 1) : Inv (holding (manyA n)) :=
  holding_inv _ (by simpa [manyA] using h)

theorem holding_manyA_nchunks (n : Nat) : nchunks (holding (manyA n)) = (n + 63) / 64 := by
  rw [holding_nchunks, manyA, List.length_replicate]

theorem reset_inv : Inv State.reset where
  cfgWf := rfl
  memWf := rfl
  memInside c h := by cases h
  absentEmpty _ := rfl
  accumPacked h := by cases h
  accumHash h := by cases h
  accumLength h := by cases h
  accumRoom h := by cases h
  doneChunks h := by cases h

theorem padded_length : (padMessage (manyA 1)).length = 64 := by decide +kernel

theorem finished_inv : Inv finished where
  cfgWf := rfl
  memWf := Memory.wf_writeBytes rfl _ _
  memInside c hc := by
    rcases Memory.mem_writeBytes hc with h | h
    · cases h
    · rw [padded_length] at h
      simp only [nchunks, finished, List.length_singleton]
      omega
  absentEmpty h := by cases h
  accumPacked h := by cases h
  accumHash h := by cases h
  accumLength h := by cases h
  accumRoom h := by cases h
  doneChunks _ := ⟨Nat.le_refl 1, fun m hm => by cases hm⟩

theorem finished_matches : DigestMatchesMemory finished := fun _ =>
  ⟨manyA 1, by decide, by
    rw [storedBytes_eq]
    have h := readRange_writeBytes (m := []) rfl 0 (padMessage (manyA 1))
    rw [padded_length] at h
    exact h, rfl⟩

/-! ### Witnesses: for every statement with hypotheses, one case that meets them, clause by clause -/

theorem test_witness_DecodeFollowsThePseudocode :
    (word 0x02FF#16).cmd.toNat / 256 = 2 ∧
    ((word 0x0100#16).cmd.toNat / 256 = 1 ∧ (word 0x0100#16).cmd.toNat % 256 = 0) ∧
    ((word 0x0300#16).cmd.toNat / 256 = 3 ∧ (word 0x0300#16).cmd.toNat % 256 = 0) ∧
    ((word 0x0400#16).cmd.toNat / 256 = 4 ∧ (word 0x0400#16).cmd.toNat % 256 = 0) ∧
    ((word 0x0101#16).cmd.toNat / 256 ≠ 2 ∧ (word 0x0101#16).cmd.toNat % 256 ≠ 0) ∧
    (word 0x0500#16).cmd.toNat / 256 = 5 := by decide

theorem test_witness_DecodeMatchesTheMaskTable : (word 0x0000#16).cmd = 0x0000#16 := rfl

theorem test_witness_DecodeInvertsEncode :
    (Instr.append 0 (manyA 64)).wf = true ∧ (Instr.append 255 (manyA 64)).wf = true ∧
      Instr.create.wf = true ∧ Instr.finalize.wf = true ∧ Instr.destroy.wf = true := by decide

theorem test_witness_EncodeInvertsDecode :
    decode (word 0x0240#16) = .command (.append 64 (List.replicate 64 0#8)) ∧
      decode (word 0x0400#16) = .command .destroy := by decide

/-- The first chunk, and a later one. -/
theorem test_witness_PayloadBusGivesScheduleWords :
    (Inv (holding []) ∧ (holding []).phase = .accum ∧ totalBytes (holding []) % 64 = 0 ∧
      totalBytes (holding []) + 64 ≤ 2 ^ 61 - 1 ∧ wouldExceedCapacity (holding []) 64 = false) ∧
    (Inv (holding (manyA 64)) ∧ (holding (manyA 64)).phase = .accum ∧ totalBytes (holding (manyA 64)) % 64 = 0 ∧
      totalBytes (holding (manyA 64)) + 64 ≤ 2 ^ 61 - 1 ∧ wouldExceedCapacity (holding (manyA 64)) 64 = false) :=
  ⟨⟨holding_inv _ (by decide), by decide⟩, ⟨holding_manyA_inv (by decide), by decide +kernel⟩⟩

theorem test_witness_StepPerformsTheDecodedCommand :
    (facing (.command (word 0x0300#16)) (holding abc)).inputs = .command (word 0x0300#16) :: [] ∧
      decode (word 0x0300#16) = .command .finalize ∧ decodeTableWord 16 0x0300 = some .finalize := by decide

theorem test_witness_IllegalWordChangesNothing :
    (facing (.command (word 0x0500#16)) (holding abc)).inputs = .command (word 0x0500#16) :: [] ∧
      decode (word 0x0500#16) = .illegal .opcode := by decide

theorem test_witness_IdleEngineKeepsItsState : (holding abc).inputs = [] := rfl

theorem test_witness_CreateMakesAFreshInstance :
    State.reset.phase = .absent ∧ (holding abc).phase ≠ .absent ∧ finished.phase ≠ .absent ∧
      (facing (.command (word 0x0101#16)) State.reset).inputs = .command (word 0x0101#16) :: [] ∧
      (word 0x0101#16).cmd.toNat / 256 = 1 ∧ (word 0x0101#16).cmd.toNat % 256 ≠ 0 := by decide

theorem test_witness_SecondCreateIsRefused : (holding abc).phase ≠ .absent ∧ finished.phase ≠ .absent := by decide

theorem test_witness_DestroyReleasesTheInstance :
    (holding []).phase ≠ .absent ∧ finished.phase ≠ .absent ∧ State.reset.phase = .absent ∧
      (facing (.command (word 0x0440#16)) (holding abc)).inputs = .command (word 0x0440#16) :: [] ∧
      (word 0x0440#16).cmd.toNat / 256 = 4 ∧ (word 0x0440#16).cmd.toNat % 256 ≠ 0 := by decide

/-- Every clause of the table: a state, a command, and a next state it answers. -/
theorem test_witness_PhaseFollowsTheTable :
    (∃ t, exec .create State.reset = .next t ∧ State.reset.phase = .absent) ∧
    (∃ t, exec (.append 1 (manyA 64)) (holding abc) = .next t ∧ (holding abc).phase = .accum) ∧
    (∃ t, exec .finalize (holding abc) = .next t ∧ 1 ≤ nchunks (holding abc)) ∧
    (∃ t, exec .finalize (holding []) = .next t ∧ nchunks (holding []) = 0) ∧
    (∃ t, exec .destroy (holding abc) = .next t ∧ (holding abc).phase = .accum) ∧
    (∃ t, exec .destroy finished = .next t ∧ finished.phase = .done) ∧
    (∃ t, exec .finalize finished = .next t ∧ legalIn finished.phase .finalize = false) ∧
    (∃ t, exec (.append 65 (manyA 64)) (holding abc) = .next t ∧ t.port = some ⟨.oversizedChunk, none⟩) ∧
    (∃ t, step (facing (.command (word 0x0000#16)) (holding abc)) = .next t ∧
      decode (word 0x0000#16) = .illegal .opcode) ∧
    (∃ t, step (facing .reset (holding abc)) = .next t) := by
  refine ⟨⟨_, rfl, rfl⟩, ?_, ?_, ⟨_, rfl, rfl⟩, ⟨_, rfl, rfl⟩, ⟨_, rfl, rfl⟩, ⟨_, rfl, rfl⟩, ⟨_, rfl, rfl⟩,
    ⟨_, rfl, by decide⟩, ⟨_, rfl⟩⟩
  · exact ⟨_, execAppend_packed (holding_inv abc (by decide)) rfl (by decide) (by decide) (by decide) (by decide), rfl⟩
  · obtain ⟨r, hr⟩ := execFinalize_packed (holding_inv abc (by decide)) rfl (by decide)
    exact ⟨_, hr, by decide⟩

theorem test_witness_CommandsOutsideTheirPhaseAreRefused :
    (State.reset.phase = .absent ∧ Instr.create = .create) ∧
    ((holding abc).phase = .accum ∧ Instr.finalize ≠ .create) ∧ (finished.phase = .done ∧ Instr.destroy = .destroy) ∧
    ¬ ((finished.phase = .absent ∧ Instr.finalize = .create) ∨ (finished.phase = .accum ∧ Instr.finalize ≠ .create) ∨
      (finished.phase = .done ∧ Instr.finalize = .destroy)) := by decide

theorem test_witness_OversizedAppendIsRejectedWhole :
    ((holding abc).phase = .accum ∧ 64 < 65 ∧ 64 < 255) ∧
      ∃ t, exec (.append 65 (manyA 64)) (holding abc) = .next t ∧ t.port = some ⟨.oversizedChunk, none⟩ :=
  ⟨by decide, ⟨_, rfl, rfl⟩⟩

theorem test_witness_OverlongMessageIsRefused :
    ((claiming (2 ^ 61 - 1)).phase = .accum ∧ 1 ≤ 64 ∧ 2 ^ 61 - 1 < totalBytes (claiming (2 ^ 61 - 1)) + 1) ∧
      ∃ t, exec (.append 1 (manyA 64)) (claiming (2 ^ 61 - 1)) = .next t ∧ t.port = some ⟨.lengthOverflow, none⟩ := by
  refine ⟨by decide +kernel, ?_⟩
  obtain ⟨t, ht, hp⟩ := next_of_leaves (o := exec (.append 1 (manyA 64)) (claiming (2 ^ 61 - 1)))
    (p := fun t => t.port == some ⟨.lengthOverflow, none⟩) (by decide +kernel)
  exact ⟨t, ht, by simpa using hp⟩

/-- The first byte too many, with `MAX_CHUNKS = some 3` and 128 bytes held. -/
theorem test_witness_FullBufferIsRefused :
    ((limited 3 (holding (manyA 128))).phase = .accum ∧ 1 ≤ 64 ∧
      totalBytes (limited 3 (holding (manyA 128))) + 1 ≤ 2 ^ 61 - 1 ∧
      (limited 3 (holding (manyA 128))).cfg.maxChunks = some 3 ∧
      64 * 3 < totalBytes (limited 3 (holding (manyA 128))) + 1 + 64) ∧
      ∃ t, exec (.append 1 (manyA 64)) (limited 3 (holding (manyA 128))) = .next t ∧
        t.port = some ⟨.bufferFull, none⟩ := by
  refine ⟨by decide +kernel, ?_⟩
  obtain ⟨t, ht, hp⟩ := next_of_leaves (o := exec (.append 1 (manyA 64)) (limited 3 (holding (manyA 128))))
    (p := fun t => t.port == some ⟨.bufferFull, none⟩) (by decide +kernel)
  exact ⟨t, ht, by simpa using hp⟩

theorem test_witness_ErrorsAreReportedByPriority :
    ((facing (.command (word 0x0301#16)) State.reset).inputs = .command (word 0x0301#16) :: [] ∧
      decode (word 0x0301#16) = .illegal .reservedLength) ∧
    (∃ t, exec (.append 65 (manyA 64)) finished = .next t) ∧ (∃ t, exec .finalize (holding []) = .next t) ∧
    (∃ t, exec .create State.reset = .next t) ∧ (∃ t, exec .destroy (holding abc) = .next t) :=
  ⟨by decide, ⟨_, rfl⟩, ⟨_, rfl⟩, ⟨_, rfl⟩, ⟨_, rfl⟩⟩

/-- An empty buffer, and the greatest length (B17). -/
theorem test_witness_ZeroLengthAppendChangesNothing :
    ((holding []).phase = .accum ∧ totalBytes (holding []) ≤ 2 ^ 61 - 1 ∧
      wouldExceedCapacity (holding []) 0 = false ∧ nchunks (holding []) = 0) ∧
    ((claiming (2 ^ 61 - 1)).phase = .accum ∧ totalBytes (claiming (2 ^ 61 - 1)) ≤ 2 ^ 61 - 1 ∧
      wouldExceedCapacity (claiming (2 ^ 61 - 1)) 0 = false) := by decide +kernel

/-- No byte, a spill into a new chunk, and a full tail. -/
theorem test_witness_AppendExtendsTheMessage :
    (∀ n ∈ [0, 10, 64], (Instr.append n (manyA 64)).wf = true ∧ n ≤ 64) ∧
    ∀ k ∈ [0, 60, 64], Inv (holding (manyA k)) ∧ (holding (manyA k)).phase = .accum ∧
      totalBytes (holding (manyA k)) + 64 ≤ 2 ^ 61 - 1 ∧ wouldExceedCapacity (holding (manyA k)) 64 = false :=
  ⟨by decide, fun k hk => ⟨holding_manyA_inv (by
      simp only [List.mem_cons, List.not_mem_nil, or_false] at hk
      omega), by
      revert k
      decide +kernel⟩⟩

theorem test_witness_AppendStoresOnlyAtTheEnd :
    (Instr.append 10 (manyA 64)).wf = true ∧ 10 ≤ 64 ∧ Inv (holding (manyA 60)) ∧
      (holding (manyA 60)).phase = .accum ∧ totalBytes (holding (manyA 60)) + 10 ≤ 2 ^ 61 - 1 ∧
      wouldExceedCapacity (holding (manyA 60)) 10 = false :=
  ⟨by decide, by decide, holding_manyA_inv (by decide), by decide +kernel⟩

theorem test_witness_AppendNeitherReadsNorWritesHashState :
    ∃ t, exec (.append 3 (manyA 64)) (holding abc) = .next t :=
  ⟨_, execAppend_packed (holding_inv abc (by decide)) rfl (by decide) (by decide) (by decide) (by decide)⟩

theorem test_witness_PayloadBeyondTheLengthIsIgnored :
    ((lanes abc).take 3 = (abc ++ manyA 61).take 3 ∧ lanes abc ≠ abc ++ manyA 61 ∧ 3 ≤ 64 ∧ 64 < 65) ∧
      Inv (holding abc) ∧ (holding abc).phase = .accum ∧ (Instr.append 3 (manyA 64)).wf = true ∧
      ∃ t, exec (.append 3 (manyA 64)) (holding abc) = .next t :=
  ⟨by decide, holding_inv abc (by decide), rfl, by decide, test_witness_AppendNeitherReadsNorWritesHashState⟩

/-- 70 bytes as 64 + 6 and as 35 + 0 + 35. -/
theorem test_witness_ChunkingDoesNotMatter :
    ∃ t u : State, Inv State.reset ∧ State.reset.phase = .absent ∧
      (∀ c ∈ [(64, manyA 64), (6, manyA 64)], (Instr.append c.1 c.2).wf = true) ∧
      (∀ c ∈ [(35, manyA 64), (0, manyA 64), (35, manyA 64)], (Instr.append c.1 c.2).wf = true) ∧
      runCommands [.create, .append 64 (manyA 64), .append 6 (manyA 64)] State.reset = .next t ∧
      runCommands [.create, .append 35 (manyA 64), .append 0 (manyA 64), .append 35 (manyA 64)] State.reset = .next u ∧
      t.observed = State.reset.observed ++ List.replicate 3 ⟨.ok, none⟩ ∧
      u.observed = State.reset.observed ++ List.replicate 4 ⟨.ok, none⟩ ∧
      ([(64, manyA 64), (6, manyA 64)].flatMap fun c => c.2.take c.1) =
        ([(35, manyA 64), (0, manyA 64), (35, manyA 64)].flatMap fun c => c.2.take c.1) := by
  obtain ⟨t, ht, hp⟩ := next_of_leaves
    (o := runCommands [.create, .append 64 (manyA 64), .append 6 (manyA 64)] State.reset)
    (p := fun t => t.observed == List.replicate 3 ⟨.ok, none⟩) (by decide +kernel)
  obtain ⟨u, hu, hq⟩ := next_of_leaves
    (o := runCommands [.create, .append 35 (manyA 64), .append 0 (manyA 64), .append 35 (manyA 64)] State.reset)
    (p := fun t => t.observed == List.replicate 4 ⟨.ok, none⟩) (by decide +kernel)
  exact ⟨t, u, reset_inv, rfl, by decide, by decide, ht, hu, by simpa [State.reset] using hp, by simpa [State.reset] using hq,
    by decide +kernel⟩

/-- The tail lengths at and around the padder's limits. -/
theorem tails (n : Nat) (h : n ∈ [1, 55, 56, 63, 64]) :
    Inv (holding (manyA n)) ∧ (holding (manyA n)).phase = .accum ∧ 1 ≤ nchunks (holding (manyA n)) := by
  simp only [List.mem_cons, List.not_mem_nil, or_false] at h
  exact ⟨holding_manyA_inv (by omega), rfl, by rw [holding_manyA_nchunks]; omega⟩

theorem test_witness_PadWritesMarkerAndLengthField :
    (∀ n ∈ [1, 55, 56, 63, 64], Inv (holding (manyA n)) ∧ (holding (manyA n)).phase = .accum ∧
      1 ≤ nchunks (holding (manyA n))) ∧
    ∀ n ∈ [1, 55, 56, 63, 64], chunkLen (holding (manyA n)) (nchunks (holding (manyA n)) - 1) = n :=
  ⟨tails, by decide +kernel⟩

theorem test_witness_PaddedMessageFillsWholeBlocks :
    ∃ s, Inv s ∧ s.phase = .accum ∧ 1 ≤ nchunks s := ⟨_, tails 56 (by decide)⟩

theorem test_witness_LengthIsLatchedBeforePadding :
    ∃ s, Inv s ∧ s.phase = .accum ∧ 1 ≤ nchunks s := ⟨_, tails 64 (by decide)⟩

theorem test_witness_MemoryAccessStaysInOneChunk :
    (0 < nchunks (holding abc) ∧ 60 + 4 ≤ 64 ∧ (manyA 4).length = 4 ∧ Memory.wf (holding abc).mem = true) ∧
      ¬ (0 < nchunks (holding abc) ∧ 61 + 4 ≤ 64) ∧ ¬ (1 < nchunks (holding abc) ∧ 0 + 1 ≤ 64) := by decide +kernel

theorem test_witness_LoadFormsBigEndianWords : (holding abc).tr.blk < nchunks (holding abc) := by decide

theorem test_witness_ExpandFollowsTheRecurrence : 16 ≤ 16 ∧ 16 < 80 ∧ 16 ≤ 79 ∧ 79 < 80 ∧ 15 < 16 := by decide

theorem test_witness_RotationMovesEveryBit : 0 < 1 ∧ 1 < 32 ∧ 31 < 32 ∧ 0 < 31 := by decide

/-- The rounds on both sides of every change of the round function. -/
theorem test_witness_RoundFunctionIsChooseParityMajority :
    (∀ t : Fin 80, t.val ∈ [0, 19] → t.val ≤ 19) ∧ (∀ t : Fin 80, t.val ∈ [20, 39] → 20 ≤ t.val ∧ t.val ≤ 39) ∧
      (∀ t : Fin 80, t.val ∈ [40, 59] → 40 ≤ t.val ∧ t.val ≤ 59) ∧ (∀ t : Fin 80, t.val ∈ [60, 79] → 60 ≤ t.val) := by
  decide

theorem test_witness_RoundShiftsTheWorkingRegisters :
    State.reset.tr.t.val < 79 ∧ ({ State.reset with tr := { State.reset.tr with t := 79 } } : State).tr.t.val = 79 := by
  decide

theorem test_witness_OnePassCompressesOneBlock : (holding abc).tr.blk < nchunks (holding abc) := by decide

theorem test_witness_EmptyInputIsRejected :
    ((holding []).phase = .accum ∧ nchunks (holding []) = 0) ∧ Inv (holding []) ∧
      ∃ t, exec .finalize (holding []) = .next t ∧ t.port = some ⟨.emptyInput, none⟩ :=
  ⟨by decide, holding_inv [] (by decide), ⟨_, rfl, rfl⟩⟩

theorem test_witness_FinalizeAnswersTheDigestOfTheMessage :
    ∃ s, Inv s ∧ s.phase = .accum ∧ 1 ≤ nchunks s := ⟨_, tails 55 (by decide)⟩

theorem test_witness_FinalizeChangesOnlyThePadding :
    ∃ s, Inv s ∧ s.phase = .accum ∧ 1 ≤ nchunks s := ⟨_, tails 63 (by decide)⟩

/-- A state in each micro-step, with a block index before the last and at the last. -/
def atStep (f : FStep) (blk nb : Nat) (t : Fin 80) : State :=
  { holding abc with tr := { State.reset.tr with fstep := f, blk := blk, nb := nb, t := t } }

theorem test_witness_MicroStepsFollowTheControlTable :
    (∃ u, microStep (latchLength (holding abc)) = .next (.running u) ∧ (latchLength (holding abc)).tr.fstep = .pad) ∧
    (∃ u, microStep (atStep .load 0 1 0) = .next (.running u) ∧ (atStep .load 0 1 0).tr.fstep = .load) ∧
    ((atStep .round 0 1 78).tr.t.val < 79 ∧ (atStep .round 0 1 79).tr.t.val = 79) ∧
    ((atStep .fold 0 2 79).tr.blk + 1 < (atStep .fold 0 2 79).tr.nb ∧
      (atStep .fold 0 1 79).tr.blk + 1 = (atStep .fold 0 1 79).tr.nb) := by
  refine ⟨?_, ?_, by decide, by decide⟩
  · rw [microStep, latchLength_tr_fstep]
    simp only [microPad_latched (holding_inv abc (by decide)) rfl (by decide), andThen_next]
    exact ⟨_, rfl, trivial⟩
  · rw [microStep, show (atStep .load 0 1 0).tr.fstep = .load from rfl]
    simp only [microLoad, memRead_inside (s := atStep .load 0 1 0) (k := (atStep .load 0 1 0).tr.blk) (o := 0)
      (n := chunkCap) (by decide) (by decide), andThen_next]
    exact ⟨_, rfl, trivial⟩

theorem test_witness_MicroStepsEndWhereFinalizeEnds :
    ∃ s, Inv s ∧ s.phase = .accum ∧ 1 ≤ nchunks s := ⟨_, tails 64 (by decide)⟩

/-- `"abcde"` in two appends with non-zero bytes on the unused lanes, and a bound on the chunks. -/
theorem test_witness_CommandSequenceAnswersSha1 :
    (limited 2 State.reset).phase = .absent ∧
    (∀ c ∈ [(3, abc ++ manyA 61), (2, [0x64#8, 0x65#8] ++ manyA 62)],
      (Instr.append c.1 c.2).wf = true ∧ c.1 ≤ 64) ∧
    ([(3, abc ++ manyA 61), (2, [0x64#8, 0x65#8] ++ manyA 62)].flatMap fun c => c.2.take c.1) = abcde ∧
    abcde ≠ [] ∧ abcde.length ≤ 2 ^ 61 - 1 ∧
    (∀ m ∈ (limited 2 State.reset).cfg.maxChunks, abcde.length + 64 ≤ 64 * m) := by
  refine ⟨rfl, by decide, by decide, by decide, by decide, fun m hm => ?_⟩
  obtain rfl : 2 = m := by simpa [limited] using hm
  decide

theorem test_witness_HashExpandsIntoSixtyFourByteAppends : abc ≠ [] ∧ manyA 64 ≠ [] ∧ manyA 65 ≠ [] := by decide

theorem test_witness_DigestIsTheBigEndianConcatenation : 0 < 4 ∧ 3 < 4 := by decide

theorem test_witness_DigestIsHeldWhileDone :
    finished.phase = .done ∧ (∃ t, exec .finalize finished = .next t ∧ Instr.finalize ≠ .destroy) ∧
      (facing .readDigest finished).inputs = .readDigest :: [] :=
  ⟨rfl, ⟨_, rfl, by decide⟩, rfl⟩

theorem test_witness_DigestHasNoValueElsewhere :
    (∃ r, exec .finalize (holding abc) = .next (finishFinalize r)) ∧
    (∃ t, exec .create State.reset = .next t ∧ t.port = some ⟨.ok, none⟩) ∧ finished.phase = .done ∧
      (facing .readDigest (holding abc)).phase ≠ .done ∧
      (facing .readDigest (holding abc)).inputs = .readDigest :: [] := by
  refine ⟨?_, ⟨_, rfl, rfl⟩, rfl, by decide, rfl⟩
  obtain ⟨r, hr⟩ := execFinalize_packed (holding_inv abc (by decide)) rfl (by decide)
  exact ⟨_, hr⟩

theorem test_witness_OneInstanceGivesOneDigest :
    finished.phase = .done ∧ Instr.destroy ∉ [Instr.finalize, .append 65 (manyA 64), .create] ∧
      ∃ t, runCommands [.finalize, .append 65 (manyA 64), .create] finished = .next t :=
  ⟨rfl, by decide, ⟨_, rfl⟩⟩

theorem test_witness_ResetLeavesNoInstance :
    (facing .reset finished).inputs = .reset :: [] ∧
      (facing (.resetDuring (word 0x0300#16)) (holding abc)).inputs = .resetDuring (word 0x0300#16) :: [] :=
  ⟨rfl, rfl⟩

theorem test_witness_ResetAndDestroyLeaveTheSameState :
    (facing .reset State.reset).inputs = .reset :: [] ∧ (facing .reset finished).inputs = .reset :: [] ∧
      (facing .reset finished).phase ≠ .absent := ⟨rfl, rfl, by decide⟩

/-- A step that changes the state: a `DESTROY` of a finished instance. -/
theorem test_witness_EveryStepKeepsTheInvariant :
    ∃ t, Inv (facing (.command (word 0x0400#16)) finished) ∧
      step (facing (.command (word 0x0400#16)) finished) = .next t :=
  ⟨_, ⟨finished_inv.cfgWf, finished_inv.memWf, finished_inv.memInside, finished_inv.absentEmpty,
    (fun h => by cases h), finished_inv.accumHash, finished_inv.accumLength, finished_inv.accumRoom,
    finished_inv.doneChunks⟩, rfl⟩

/-- A state that holds a digest, and a step that keeps it. -/
theorem test_witness_EveryStepKeepsTheDigestMatched :
    ∃ t, Inv finished ∧ DigestMatchesMemory finished ∧ finished.phase = .done ∧ step finished = .next t ∧
      t.phase = .done := ⟨_, finished_inv, finished_matches, rfl, rfl, rfl⟩

theorem test_witness_FaultMarkIsSetByFourStatusesAndStays :
    (∃ t, step { facing .reset finished with faultMark := true } = .next t ∧ t.phase = .absent) ∧
    (∃ t, step (facing (.command (word 0x0300#16)) (holding [])) = .next t ∧ t.port = some ⟨.emptyInput, none⟩) ∧
    (∃ t, step (facing (.command (word 0x0300#16)) State.reset) = .next t ∧ t.port = some ⟨.stateError, none⟩) :=
  ⟨⟨_, rfl, rfl⟩, ⟨_, rfl, rfl⟩, ⟨_, rfl, rfl⟩⟩

theorem test_witness_EveryCommandIsAnsweredOnce :
    Inv (holding abc) ∧ Inv finished ∧ Inv State.reset ∧ (Instr.append 255 (manyA 64)).wf = true :=
  ⟨holding_inv abc (by decide), finished_inv, reset_inv, by decide⟩

theorem test_witness_ErrorsLeaveTheStateUnchanged :
    ∃ t, exec (.append 65 (manyA 64)) (holding abc) = .next t ∧ t.port = some ⟨.oversizedChunk, none⟩ ∧
      Status.oversizedChunk ≠ .ok := ⟨_, rfl, rfl, by decide⟩

theorem test_witness_FailedCommandLeavesNoTrace :
    (∃ t, exec (.append 65 (manyA 64)) (holding abc) = .next t ∧ t.port = some ⟨.oversizedChunk, none⟩) ∧
      Inv (holding abc) ∧ (Instr.append 3 (manyA 64)).wf = true ∧
      ∃ u, exec (.append 3 (manyA 64)) (holding abc) = .next u :=
  ⟨⟨_, rfl, rfl⟩, holding_inv abc (by decide), by decide, test_witness_AppendNeitherReadsNorWritesHashState⟩

/-- Two engines without an instance that hold different words in every unspecified register. -/
theorem test_witness_ResponsesIgnoreUnspecifiedState :
    Inv { State.reset with h := initialHash, freeIdx := 7 } ∧ Inv State.reset ∧
      ({ State.reset with h := initialHash, freeIdx := 7 } : State).h ≠ State.reset.h ∧
      (∀ i ∈ [Instr.create, .append 3 (manyA 64), .destroy], i.wf = true) ∧
      ∃ t, runCommands [.create, .append 3 (manyA 64), .destroy] State.reset = .next t := by
  refine ⟨⟨rfl, rfl, (fun c h => by cases h), fun _ => rfl, (fun h => by cases h), (fun h => by cases h),
    (fun h => by cases h), (fun h => by cases h), (fun h => by cases h)⟩, reset_inv, by decide, by decide, ?_⟩
  obtain ⟨t, ht, -⟩ := next_of_leaves (o := runCommands [.create, .append 3 (manyA 64), .destroy] State.reset)
    (p := fun _ => true) (by decide +kernel)
  exact ⟨t, ht⟩

theorem test_witness_OnlyTheFoldChangesTheHash :
    (∃ u, microStep (atStep .init 0 1 0) = .next (.running u) ∧ (atStep .init 0 1 0).tr.fstep ≠ .fold) ∧
    (∃ t, exec .create State.reset = .next t ∧ t.h ≠ State.reset.h) ∧
    Inv (holding abc) ∧ (holding abc).phase = .accum :=
  ⟨⟨_, rfl, by decide⟩, ⟨_, rfl, by decide⟩, holding_inv abc (by decide), rfl⟩

end Sys2Proof.Tests
end

section
/-! PROOF. The family 10_state.md: where `DIGEST` has a value (R24). -/

namespace Sys2Proof.Machine

theorem digestPort_of_done {s : State} (h : s.phase = .done) : digestPort s = some (digestOf s.h) := if_pos h

theorem digestPort_of_not_done {s : State} (h : s.phase ≠ .done) : digestPort s = none := if_neg h

theorem readDigestPort_of_not_done {s : State} (h : s.phase ≠ .done) :
    readDigestPort s = .fault .digestUnspecified := by
  rw [readDigestPort, digestPort_of_not_done h]

theorem step_readDigest {s : State} {rest : List HostEvent} (h : s.inputs = .readDigest :: rest) :
    step s = readDigestPort (withInputs s rest) := by
  rw [step, h]

/-- The two shapes of a response: a performed `FINALIZE` answers `OK` with the digest of the `H` it leaves, and
everything else answers without a digest, `FINALIZE` then with a status other than `OK` (R24, R68). -/
theorem exec_response {s t : State} {i : Instr} (h : exec i s = .next t) :
    (i = .finalize ∧ t.port = some ⟨.ok, some (digestOf t.h)⟩) ∨
      ∃ e, t.port = some ⟨e, none⟩ ∧ (i = .finalize → e ≠ .ok) := by
  cases i with
  | create =>
    right
    rcases execCreate_cases h with ⟨-, rfl⟩ | ⟨-, rfl⟩ <;> exact ⟨_, rfl, nofun⟩
  | append n d =>
    right
    rcases execAppend_cases h with ⟨-, rfl⟩ | ⟨-, -, rfl⟩ | ⟨-, -, -, rfl⟩ | ⟨-, -, -, -, rfl⟩ |
      ⟨-, -, -, -, ⟨-, rfl⟩ | ⟨-, u, -, rfl⟩⟩ <;> exact ⟨_, rfl, nofun⟩
  | finalize =>
    rcases execFinalize_cases h with ⟨-, rfl⟩ | ⟨-, -, rfl⟩ | ⟨-, -, u, v, -, -, rfl⟩
    · exact .inr ⟨_, rfl, nofun⟩
    · exact .inr ⟨_, rfl, nofun⟩
    · exact .inl ⟨rfl, rfl⟩
  | destroy =>
    right
    rcases execDestroy_cases h with ⟨-, rfl⟩ | ⟨-, rfl⟩ <;> exact ⟨_, rfl, nofun⟩

/-- Settles O47, from the two shapes of a response and the two values of the port. -/
theorem digestHasNoValueElsewhere : Obligations.DigestHasNoValueElsewhere := by
  refine ⟨fun _ => rfl, ?response, fun s => ⟨digestPort_of_done, digestPort_of_not_done⟩, ?read⟩
  case response =>
    intro s i t e dg h hp
    rcases exec_response h with ⟨rfl, hd⟩ | ⟨e', hd, hne⟩
    · obtain ⟨rfl, rfl⟩ : Status.ok = e ∧ some (digestOf t.h) = dg := by simpa [hd] using hp
      exact ⟨fun _ => rfl, by simp⟩
    · obtain ⟨rfl, rfl⟩ : e' = e ∧ none = dg := by simpa [hd] using hp
      exact ⟨fun ⟨hi, he⟩ => absurd he (hne hi), fun _ => rfl⟩
  case read =>
    intro s rest hphase hin
    rw [step_readDigest hin]
    exact readDigestPort_of_not_done hphase

end Sys2Proof.Machine
end

section
/-! PROOF. The family 20_memory.md: the accesses of chunk memory (R41) and the big-endian words of a block
(R44, R115). -/

namespace Sys2Proof.Machine

/-! ### The accesses of R41 -/

theorem inChunk_eq_false {s : State} {k o n : Nat} (h : ¬ (k < nchunks s ∧ o + n ≤ 64)) :
    inChunk s k o n = false := by
  simpa only [inChunk, chunkCap, ← Bool.decide_and, decide_eq_false_iff_not] using h

theorem memRead_outside {s : State} {k o n : Nat} (h : ¬ (k < nchunks s ∧ o + n ≤ 64)) :
    memRead s k o n = .fault .chunkAccess := by
  simp [memRead, inChunk_eq_false h]

theorem memWrite_outside {s : State} {k o n : Nat} (h : ¬ (k < nchunks s ∧ o + n ≤ 64)) (v : List Byte) :
    memWrite s k o n v = .fault .chunkAccess := by
  simp [memWrite, inChunk_eq_false h]

/-- The linear byte numbers of an access inside the bounds of R41 are those of its own chunk's offsets: no access
crosses from one chunk into the next. -/
theorem cellAddr_mem_access {k o n k' o' : Nat} (hn : o + n ≤ 64) (ho' : o' < 64) :
    (64 * k + o ≤ cellAddr k' o' ∧ cellAddr k' o' < 64 * k + o + n) ↔ k' = k ∧ o ≤ o' ∧ o' < o + n := by
  simp only [cellAddr, chunkCap]
  omega

/-- Reading one byte of chunk memory after a store inside the bounds of R41. -/
theorem chunkByte_memWrite {s t : State} {k o n : Nat} {v : List Byte} (hwf : Memory.wf s.mem = true)
    (h : memWrite s k o n v = .next t) {o' : Nat} (ho' : o' < 64) (k' : Nat) :
    chunkByte t k' o' = if k' = k ∧ o ≤ o' ∧ o' < o + n then v.getD (o' - o) 0#8 else chunkByte s k' o' := by
  obtain ⟨-, hn, rfl, rfl⟩ := memWrite_eq_next h
  simp only [chunkByte, Memory.readByte_writeBytes hwf, cellAddr_mem_access hn ho']
  split
  next hin =>
    obtain ⟨rfl, -, -⟩ := hin
    rw [cellAddr, chunkCap, Nat.add_sub_add_left]
  next => rfl

/-- Settles O15, from what the two accesses answer inside and outside the bounds of R41. -/
theorem memoryAccessStaysInOneChunk : Obligations.MemoryAccessStaysInOneChunk := by
  refine fun s k o n => ⟨fun ⟨hk, hn⟩ => ⟨?read, ?write⟩, fun h => ⟨memRead_outside h, memWrite_outside h⟩⟩
  case read =>
    exact ⟨_, memRead_inside hk hn, by simp, fun j hj => by simp [hj]⟩
  case write =>
    intro v hv hwf
    have hw := memWrite_inside hk hn hv
    exact ⟨_, hw, rfl, rfl, wf_memWrite hwf hw, fun k' o' ho' => chunkByte_memWrite hwf hw ho' k'⟩

/-! ### The words of a block -/

/-- A byte moved into the place of a higher byte of a word loses no bit. -/
theorem setWidth_shiftLeft_toNat (b : Byte) {i : Nat} (hi : i ≤ 24) :
    (b.setWidth 32 <<< i).toNat = b.toNat <<< i := by
  have hb := b.isLt
  have hlt : b.toNat <<< i < 2 ^ 32 :=
    calc b.toNat <<< i = b.toNat * 2 ^ i := Nat.shiftLeft_eq ..
      _ ≤ 255 * 2 ^ 24 := Nat.mul_le_mul (by omega) (Nat.pow_le_pow_right (by decide) hi)
      _ < 2 ^ 32 := by decide
  rw [BitVec.toNat_shiftLeft, BitVec.toNat_setWidth_of_le (by decide), Nat.mod_eq_of_lt hlt]

/-- `be32` as a number, the byte at the lower offset the more significant (R44): each byte lies below the
lowest bit of the byte before it, so the three disjunctions are sums. -/
theorem be32_toNat (b0 b1 b2 b3 : Byte) :
    (be32 b0 b1 b2 b3).toNat = b0.toNat * 2 ^ 24 + b1.toNat * 2 ^ 16 + b2.toNat * 2 ^ 8 + b3.toNat := by
  have h1 := b1.isLt
  have h2 := b2.isLt
  have h3 := b3.isLt
  have h23 : b2.toNat <<< 8 + b3.toNat < 2 ^ 16 := by
    rw [Nat.shiftLeft_eq]
    omega
  have h123 : b1.toNat <<< 16 + (b2.toNat <<< 8 + b3.toNat) < 2 ^ 24 := by
    rw [Nat.shiftLeft_eq]
    omega
  calc (be32 b0 b1 b2 b3).toNat
      = b0.toNat <<< 24 ||| (b1.toNat <<< 16 ||| (b2.toNat <<< 8 ||| b3.toNat)) := by
        simp only [be32, BitVec.toNat_or, setWidth_shiftLeft_toNat, Nat.le_refl, Nat.reduceLeDiff,
          BitVec.toNat_setWidth_of_le, Nat.or_assoc]
    _ = b0.toNat <<< 24 + (b1.toNat <<< 16 + (b2.toNat <<< 8 + b3.toNat)) := by
        rw [← Nat.shiftLeft_add_eq_or_of_lt h3, ← Nat.shiftLeft_add_eq_or_of_lt h23,
          ← Nat.shiftLeft_add_eq_or_of_lt h123]
    _ = b0.toNat * 2 ^ 24 + b1.toNat * 2 ^ 16 + b2.toNat * 2 ^ 8 + b3.toNat := by
        simp only [Nat.shiftLeft_eq, Nat.add_assoc]

/-- A word of chunk `k`'s data is made of the four bytes at its offsets (R115). -/
theorem blockWord_chunkData (s : State) (k : Nat) {i : Nat} (hi : i < 16) :
    blockWord (chunkData s k 64) i =
      be32 (chunkByte s k (4 * i)) (chunkByte s k (4 * i + 1)) (chunkByte s k (4 * i + 2))
        (chunkByte s k (4 * i + 3)) := by
  have hget : ∀ j < 64, (chunkData s k 64).getD j 0#8 = chunkByte s k j := fun j hj => by simp [chunkData, hj]
  rw [blockWord, hget _ (by omega), hget _ (by omega), hget _ (by omega), hget _ (by omega)]

/-- What `LOAD` answers where block `BLK` exists (R115). -/
theorem microLoad_inside {s : State} (h : s.tr.blk < nchunks s) :
    microLoad s = .next { s with tr := { s.tr with
      w := loadWords (chunkData s s.tr.blk 64) s.tr.w, fstep := .expand } } := by
  simp only [microLoad, memRead_inside h (show 0 + chunkCap ≤ 64 by decide), andThen_next, chunkData, Nat.zero_add]

/-- Settles O29, word by word from what `LOAD` leaves in the schedule. -/
theorem loadFormsBigEndianWords : Obligations.LoadFormsBigEndianWords := by
  refine fun s h => ⟨_, microLoad_inside h, fun i hi => ?low, fun i hi => ?high, rfl⟩
  case low => rw [loadWords_getElem, if_pos hi, blockWord_chunkData s _ hi, be32_toNat]
  case high => rw [loadWords_getElem, if_neg (Nat.not_lt.mpr hi)]

end Sys2Proof.Machine
end

section
/-! PROOF. The family 30_encoding.md: the two fields of a command word, and the commands it decodes to (R61, R62,
R66). -/

namespace Sys2Proof

/-! ### The fields of a command word (R61) -/

theorem opField_toNat (cmd : BitVec 16) : (opField cmd).toNat = cmd.toNat / 256 := by
  rw [opField, BitVec.extractLsb'_toNat, Nat.shiftRight_eq_div_pow]
  omega

theorem lenField_toNat (cmd : BitVec 16) : (lenField cmd).toNat = cmd.toNat % 256 := by
  rw [lenField, BitVec.extractLsb'_toNat, Nat.shiftRight_zero]

theorem opField_eq_iff {cmd : BitVec 16} {op : BitVec 8} : opField cmd = op ↔ cmd.toNat / 256 = op.toNat := by
  rw [← BitVec.toNat_inj, opField_toNat]

theorem lenField_eq_iff {cmd : BitVec 16} {len : BitVec 8} : lenField cmd = len ↔ cmd.toNat % 256 = len.toNat := by
  rw [← BitVec.toNat_inj, lenField_toNat]

theorem opField_commandWord (op len : BitVec 8) : opField (commandWord op len) = op :=
  BitVec.extractLsb'_append_eq_left

theorem lenField_commandWord (op len : BitVec 8) : lenField (commandWord op len) = len :=
  BitVec.extractLsb'_append_eq_right

theorem commandWord_fields (cmd : BitVec 16) : commandWord (opField cmd) (lenField cmd) = cmd := by
  rw [commandWord, opField, lenField, BitVec.extractLsb'_append_extractLsb'_eq_extractLsb' (Nat.zero_add 8).symm,
    BitVec.extractLsb'_eq_self]

theorem eq_commandWord_iff {cmd : BitVec 16} {op len : BitVec 8} :
    cmd = commandWord op len ↔ opField cmd = op ∧ lenField cmd = len := by
  constructor
  · rintro rfl
    exact ⟨opField_commandWord op len, lenField_commandWord op len⟩
  · rintro ⟨rfl, rfl⟩
    exact (commandWord_fields cmd).symm

/-! ### The masks of R62 -/

/-- Under the mask `0xFFFF` a word is its two fields. -/
theorem and_fullMask_eq_iff {cmd : BitVec 16} {op len : BitVec 8} :
    cmd &&& 0xFFFF#16 = commandWord op len ↔ opField cmd = op ∧ lenField cmd = len := by
  rw [show 0xFFFF#16 = BitVec.allOnes 16 from rfl, BitVec.and_allOnes, eq_commandWord_iff]

/-- Under the mask `0xFF00` only the opcode field of a word is left. -/
theorem and_opcodeMask_eq_iff {cmd : BitVec 16} {op : BitVec 8} :
    cmd &&& 0xFF00#16 = commandWord op 0#8 ↔ opField cmd = op := by
  have hand : cmd &&& 0xFF00#16 = commandWord (opField cmd) 0#8 :=
    calc cmd &&& 0xFF00#16
        = (opField cmd ++ lenField cmd) &&& (BitVec.allOnes 8 ++ 0#8) := by
          rw [← commandWord, commandWord_fields]
          rfl
      _ = commandWord (opField cmd) 0#8 := by
          rw [BitVec.and_append, BitVec.and_allOnes, BitVec.and_zero, commandWord]
  rw [hand, commandWord, commandWord, BitVec.append_left_inj]

/-! ### What a word decodes to (R66) -/

/-- The fields of the word, and the payload of an `APPEND`, are those the table of R62 gives the command. -/
def Spells (p : PortInput) : Instr → Prop
  | .create => opField p.cmd = opCreate ∧ lenField p.cmd = 0#8
  | .append n d => opField p.cmd = opAppend ∧ n = (lenField p.cmd).toNat ∧ d = p.data.toList
  | .finalize => opField p.cmd = opFinalize ∧ lenField p.cmd = 0#8
  | .destroy => opField p.cmd = opDestroy ∧ lenField p.cmd = 0#8

theorem ifReservedZero_eq_command_iff {len : BitVec 8} {i j : Instr} :
    ifReservedZero len i = .command j ↔ len = 0#8 ∧ i = j := by
  unfold ifReservedZero
  split <;> simp [*]

/-- The decoder answers a command exactly where the fields spell it. -/
theorem decode_eq_command_iff {p : PortInput} {i : Instr} : decode p = .command i ↔ Spells p i := by
  constructor
  · intro h
    unfold decode at h
    split at h
    case isTrue hop =>
      cases h
      exact ⟨hop, rfl, rfl⟩
    iterate 3
      split at h
      case isTrue hop =>
        obtain ⟨hlen, rfl⟩ := ifReservedZero_eq_command_iff.mp h
        exact ⟨hop, hlen⟩
    cases h
  · intro h
    cases i with
    | append n d =>
      obtain ⟨hop, rfl, rfl⟩ := h
      exact if_pos hop
    | create | finalize | destroy =>
      obtain ⟨hop, hlen⟩ := h
      simp [decode, hop, hlen, ifReservedZero, opCreate, opAppend, opFinalize, opDestroy]

theorem decode_illegal_of_not_spells {p : PortInput} (h : ∀ i, ¬ Spells p i) : ∃ why, decode p = .illegal why := by
  cases hd : decode p with
  | command i => exact absurd (decode_eq_command_iff.mp hd) (h i)
  | illegal why => exact ⟨why, rfl⟩

/-- Settles O2: the fields as numbers, and the illegal words as those that spell no command. -/
theorem decodeFollowsThePseudocode : Obligations.DecodeFollowsThePseudocode := by
  intro p
  simp only [decode_eq_command_iff]
  refine ⟨fun hop => ⟨opField_eq_iff.mpr hop, (lenField_toNat p.cmd).symm, rfl⟩,
    fun ⟨hop, hlen⟩ => ⟨opField_eq_iff.mpr hop, lenField_eq_iff.mpr hlen⟩,
    fun ⟨hop, hlen⟩ => ⟨opField_eq_iff.mpr hop, lenField_eq_iff.mpr hlen⟩,
    fun ⟨hop, hlen⟩ => ⟨opField_eq_iff.mpr hop, lenField_eq_iff.mpr hlen⟩,
    fun ⟨hAppend, hCreate, hFinalize, hDestroy⟩ => decode_illegal_of_not_spells fun i h => ?illegal⟩
  cases i with
  | append n d => exact hAppend (opField_eq_iff.mp h.1)
  | create => exact hCreate ⟨opField_eq_iff.mp h.1, lenField_eq_iff.mp h.2⟩
  | finalize => exact hFinalize ⟨opField_eq_iff.mp h.1, lenField_eq_iff.mp h.2⟩
  | destroy => exact hDestroy ⟨opField_eq_iff.mp h.1, lenField_eq_iff.mp h.2⟩

/-- Settles O3: each masked match is a condition on the fields, the one under which they spell the command. -/
theorem decodeMatchesTheMaskTable : Obligations.DecodeMatchesTheMaskTable := by
  intro p
  simp only [decode_eq_command_iff]
  refine ⟨and_fullMask_eq_iff (op := opCreate) (len := 0#8), ?append,
    and_fullMask_eq_iff (op := opFinalize) (len := 0#8), and_fullMask_eq_iff (op := opDestroy) (len := 0#8),
    fun hzero => decode_illegal_of_not_spells fun i h => ?zero⟩
  case append =>
    have hmask := and_opcodeMask_eq_iff (cmd := p.cmd) (op := opAppend)
    exact ⟨fun h => ⟨_, _, hmask.mp h, rfl, rfl⟩, fun ⟨_, _, hop, _, _⟩ => hmask.mpr hop⟩
  case zero =>
    have hop : opField p.cmd = 0#8 := by rw [hzero]; rfl
    cases i <;> exact absurd (hop.symm.trans h.1) (by decide)

end Sys2Proof
end

section
/-! PROOF. The family 30_encoding.md: which payload bytes an `APPEND` uses, and where they come from on a payload bus
(R64, R65). -/

namespace Sys2Proof.Machine

/-! ### The payload bytes that count (R64) -/

theorem payloadBytes_congr {r n : Nat} {d d' : List Byte} (hr : r ≤ n) (h : d.take n = d'.take n) :
    payloadBytes r d = payloadBytes r d' := by
  rw [payloadBytes, payloadBytes, ← Nat.min_eq_left hr, ← List.take_take, h, List.take_take]

/-- `absorb` sees the first `n` payload bytes only. -/
theorem absorb_congr {n : Nat} {d d' : List Byte} (h : d.take n = d'.take n) (s : State) :
    absorb n d s = absorb n d' s := by
  simp only [absorb, fillTail, spill, payloadRest, payloadBytes_congr (Nat.min_le_left n _) h, h]

theorem execAppend_congr {n : Nat} {d d' : List Byte} (h : d.take n = d'.take n) (s : State) :
    execAppend n d s = execAppend n d' s := by
  rw [execAppend, execAppend, absorb_congr h]

/-- An `APPEND` longer than a payload is refused before any payload byte is looked at. -/
theorem execAppend_oversized {n : Nat} (hn : 64 < n) (d : List Byte) (s : State) :
    execAppend n d s =
      if s.phase ≠ .accum then .next (raise .stateError s) else .next (raise .oversizedChunk s) := by
  rw [execAppend, if_pos hn]

/-- Above the bytes stored directly after the message every byte is zero still. -/
theorem zero_above_writeBytes {s : State} (hI : Inv s) (ha : s.phase = .accum) {v : List Byte} {a : Nat}
    (h : totalBytes s + v.length ≤ a) :
    Memory.readByte (Memory.writeBytes s.mem (totalBytes s) v) a = 0#8 := by
  rw [Memory.readByte_writeBytes hI.memWf, if_neg (by omega)]
  exact (hI.accumPacked ha).zero_above hI.memInside (by omega)

/-- Every byte beyond the message reads zero after an `APPEND`, performed or refused. -/
theorem execAppend_zero_above {s t : State} {n : Nat} {d : List Byte} (hI : Inv s) (ha : s.phase = .accum)
    (hd : d.length = 64) (h : execAppend n d s = .next t) {a : Nat} (hta : totalBytes t ≤ a) :
    Memory.readByte t.mem a = 0#8 := by
  have hrefused : totalBytes s ≤ a → Memory.readByte s.mem a = 0#8 :=
    (hI.accumPacked ha).zero_above hI.memInside
  rcases execAppend_cases h with ⟨-, rfl⟩ | ⟨-, -, rfl⟩ | ⟨-, -, -, rfl⟩ | ⟨-, -, -, -, rfl⟩ | ⟨-, hn, hm, hc, -⟩
  iterate 4 exact hrefused hta
  rw [execAppend_packed hI ha (by omega) hn hm hc] at h
  cases h
  simp only [totalBytes, respondOk_lens, packedLens_sum] at hta
  exact zero_above_writeBytes hI ha (by simp [totalBytes]; omega)

theorem payload_length_of_wf {n : Nat} {d : List Byte} (h : (Instr.append n d).wf = true) : d.length = 64 := by
  simp only [Instr.wf, payloadFits, Bool.and_eq_true, decide_eq_true_eq] at h
  exact h.2

/-- Settles O24, from the payload bytes that each part of `absorb` takes and the zeros above the message. -/
theorem payloadBeyondTheLengthIsIgnored : Obligations.PayloadBeyondTheLengthIsIgnored := by
  refine ⟨fun s n d d' _ h => ?inside, fun s n d d' hn => ?oversized, fun s n d t hI ha hwf h a hta => ?zero⟩
  case inside => exact execAppend_congr h s
  case oversized => exact (execAppend_oversized hn d s).trans (execAppend_oversized hn d' s).symm
  case zero => exact execAppend_zero_above hI ha (payload_length_of_wf hwf) h hta

/-! ### The payload bus (R65) -/

@[simp] theorem busLanes_getElem (bus : BitVec 512) {j : Nat} (h : j < 64) :
    (busLanes bus)[j] = bus.extractLsb' (504 - 8 * j) 8 := by
  simp [busLanes]

theorem be32_eq_append (b0 b1 b2 b3 : Byte) : be32 b0 b1 b2 b3 = b0 ++ b1 ++ b2 ++ b3 := by
  have h : (b0 ++ b1 ++ b2 ++ b3).setWidth 32 = be32 b0 b1 b2 b3 := by
    rw [BitVec.setWidth_append_append_append_eq_shiftLeft_setWidth_or, be32]
  rw [← h, BitVec.setWidth_eq]

/-- Four neighbouring bytes, the highest first, make the word that spans them. -/
theorem be32_extractLsb' {w : Nat} (x : BitVec w) (a : Nat) :
    be32 (x.extractLsb' (a + 24) 8) (x.extractLsb' (a + 16) 8) (x.extractLsb' (a + 8) 8) (x.extractLsb' a 8) =
      x.extractLsb' a 32 := by
  rw [be32_eq_append, BitVec.extractLsb'_append_extractLsb'_eq_extractLsb' (by omega),
    BitVec.extractLsb'_append_extractLsb'_eq_extractLsb' (by omega),
    BitVec.extractLsb'_append_extractLsb'_eq_extractLsb' (by omega)]

theorem blockWord_busLanes (bus : BitVec 512) {i : Nat} (hi : i < 16) :
    blockWord (busLanes bus).toList i = bus.extractLsb' (480 - 32 * i) 32 := by
  have hlane : ∀ j < 64, (busLanes bus).toList.getD j 0#8 = bus.extractLsb' (504 - 8 * j) 8 := fun j hj => by
    simp [hj]
  rw [blockWord, hlane _ (by omega), hlane _ (by omega), hlane _ (by omega), hlane _ (by omega),
    ← be32_extractLsb']
  congr 2 <;> omega

/-- What a performed `APPEND` of a full payload leaves in chunk memory (R91). -/
theorem exec_append_full {s : State} {v : List Byte} (hI : Inv s) (ha : s.phase = .accum) (hv : v.length = 64)
    (hm : totalBytes s + 64 ≤ 2 ^ 61 - 1) (hc : wouldExceedCapacity s 64 = false) :
    ∃ t, exec (.append 64 v) s = .next t ∧ t.mem = Memory.writeBytes s.mem (totalBytes s) v ∧
      t.lens = packedLens (totalBytes s + 64) := by
  refine ⟨_, execAppend_packed hI ha hv.ge (Nat.le_refl 64) hm hc, ?_, respondOk_lens ..⟩
  rw [respondOk_mem, List.take_of_length_le hv.le]

/-- The message of a state whose chunks hold the bytes `v` directly after those of `s`. -/
theorem message_appended {s t : State} {v : List Byte} (hI : Inv s) (ha : s.phase = .accum)
    (hmem : t.mem = Memory.writeBytes s.mem (totalBytes s) v) (hlens : t.lens = packedLens (totalBytes s + v.length)) :
    message t = message s ++ v := by
  have hold : readRange t.mem 0 (totalBytes s) = readRange s.mem 0 (totalBytes s) :=
    readRange_congr fun j hj => by rw [hmem, Memory.readByte_writeBytes hI.memWf, if_neg (by omega)]
  rw [message_of_lens hlens, readRange_add, hold, Nat.zero_add, hmem, readRange_writeBytes hI.memWf,
    (hI.accumPacked ha).message_eq]

/-- Settles O6: the lanes are the data of the new chunk, and `LOAD` makes each word of four neighbouring lanes. -/
theorem payloadBusGivesScheduleWords : Obligations.PayloadBusGivesScheduleWords := by
  refine fun bus => ⟨fun j h => busLanes_getElem bus h, fun s hI ha hfull hm hc => ?_⟩
  have hlen : (busLanes bus).toList.length = 64 := by simp
  obtain ⟨t, happ, hmem, hlens⟩ := exec_append_full hI ha hlen hm hc
  have hold : totalBytes s = 64 * nchunks s := by
    rw [(hI.accumPacked ha).nchunks_eq]
    omega
  have hnew : nchunks s < nchunks t := by
    rw [nchunks_of_lens hlens]
    omega
  have hdata : chunkData t (nchunks s) 64 = (busLanes bus).toList :=
    calc chunkData t (nchunks s) 64
        = readRange t.mem (64 * nchunks s) (busLanes bus).toList.length := by
          rw [hlen, ← chunkData_eq, chunkData]
      _ = (busLanes bus).toList := by rw [hmem, hold, readRange_writeBytes hI.memWf]
  refine ⟨t, _, happ, message_appended hI ha hmem (by rw [hlen, hlens]), microLoad_inside hnew, fun i hi => ?_⟩
  rw [loadWords_getElem, if_pos hi, ← blockWord_busLanes bus hi, ← hdata]
  rfl

end Sys2Proof.Machine
end

section
/-! PROOF. The family 40_lifecycle_create_destroy.md: the words with a reserved length (R67), the two lifecycle
commands (R80 to R82), and the table of phases (R83, R84). -/

namespace Sys2Proof

/-- Only `APPEND` has a use for the length field: any other opcode with a length is no command (R67). -/
theorem decode_illegal_of_length_ne_zero {p : PortInput} (hop : p.cmd.toNat / 256 ≠ 2)
    (hlen : p.cmd.toNat % 256 ≠ 0) : ∃ why, decode p = .illegal why := by
  refine decode_illegal_of_not_spells fun i h => ?_
  cases i with
  | append n d => exact hop (opField_eq_iff.mp h.1)
  | create | finalize | destroy => exact hlen (lenField_eq_iff.mp h.2)

end Sys2Proof

namespace Sys2Proof.Machine

/-! ### The two lifecycle commands and the steps beside the commands -/

theorem exec_create_absent {s : State} (h : s.phase = .absent) :
    exec .create s = .next (respondOk none (freshInstance s)) := if_pos h

theorem exec_create_existing {s : State} (h : s.phase ≠ .absent) : exec .create s = .next (raise .stateError s) :=
  if_neg h

theorem exec_destroy_absent {s : State} (h : s.phase = .absent) : exec .destroy s = .next (raise .stateError s) :=
  if_pos h

theorem exec_destroy_existing {s : State} (h : s.phase ≠ .absent) :
    exec .destroy s = .next (respondOk none (releaseInstance s)) := if_neg h

theorem step_illegal {s : State} {p : PortInput} {rest : List HostEvent} {why : IllegalWord}
    (hin : s.inputs = .command p :: rest) (hd : decode p = .illegal why) :
    step s = .next (raise .illegalCommand { s with inputs := rest }) := by
  simp only [step, hin, stepCommand, hd]
  rfl

theorem step_reset {s : State} {rest : List HostEvent} (hin : s.inputs = .reset :: rest) :
    step s = .next (applyReset (withInputs s rest)) := by
  simp only [step, hin]

/-- Settles O11, from the two refusals and what `DESTROY` leaves. -/
theorem secondCreateIsRefused : Obligations.SecondCreateIsRefused := fun s hs =>
  ⟨⟨_, exec_create_existing hs, raise_only _ s⟩,
    _, _, exec_destroy_existing hs, rfl, exec_create_absent rfl, rfl, rfl, rfl⟩

/-- Settles O12: the two outcomes of `DESTROY`, and its word with the length 0 and with another. -/
theorem destroyReleasesTheInstance : Obligations.DestroyReleasesTheInstance := by
  refine ⟨fun s hs => ⟨_, exec_destroy_existing hs, rfl, rfl, digestPort_of_not_done nofun, ?run⟩,
    fun s hs => ⟨_, exec_destroy_absent hs, raise_only _ s⟩,
    fun d => decode_eq_command_iff.mpr (eq_commandWord_iff.mp rfl),
    fun s p rest hin hop hlen => ?length⟩
  case run => exact ⟨rfl, rfl, rfl, rfl, rfl, rfl⟩
  case length =>
    obtain ⟨why, hd⟩ := decode_illegal_of_length_ne_zero (p := p) (by omega) hlen
    exact ⟨_, step_illegal hin hd, raise_only _ _⟩

/-! ### Which command is legal in which phase (R84) -/

@[simp] theorem legalIn_create (p : Phase) : legalIn p .create = decide (p = .absent) := by cases p <;> rfl

@[simp] theorem legalIn_append (p : Phase) (n : Nat) (d : List Byte) :
    legalIn p (.append n d) = decide (p = .accum) := by cases p <;> rfl

@[simp] theorem legalIn_finalize (p : Phase) : legalIn p .finalize = decide (p = .accum) := by cases p <;> rfl

@[simp] theorem legalIn_destroy (p : Phase) : legalIn p .destroy = decide (p ≠ .absent) := by cases p <;> rfl

/-- The legal pairs, phase by phase. -/
theorem legalIn_iff {p : Phase} {i : Instr} :
    legalIn p i = true ↔
      (p = .absent ∧ i = .create) ∨ (p = .accum ∧ i ≠ .create) ∨ (p = .done ∧ i = .destroy) := by
  cases p <;> cases i <;> simp

/-- Outside its phase every command is refused whole (R84, R165). -/
theorem exec_outside_phase {s : State} {i : Instr} (h : legalIn s.phase i = false) :
    exec i s = .next (raise .stateError s) := by
  cases i with
  | create => exact exec_create_existing (by simpa using h)
  | append n d => exact if_pos (by simpa using h)
  | finalize => exact if_pos (by simpa using h)
  | destroy => exact exec_destroy_absent (by simpa using h)

/-- A command raises an error, which is `StateError` only where the command is illegal, or it answers `OK`. -/
theorem exec_raises_or_ok {s t : State} {i : Instr} (h : exec i s = .next t) :
    (∃ e, e ≠ .ok ∧ (legalIn s.phase i = true → e ≠ .stateError) ∧ t = raise e s) ∨
      ∃ dg, t.port = some ⟨.ok, dg⟩ := by
  cases i with
  | create =>
    rcases execCreate_cases h with ⟨-, rfl⟩ | ⟨hp, rfl⟩
    · exact .inr ⟨_, rfl⟩
    · exact .inl ⟨.stateError, nofun, by simp [hp], rfl⟩
  | append n d =>
    rcases execAppend_cases h with ⟨hp, rfl⟩ | ⟨-, -, rfl⟩ | ⟨-, -, -, rfl⟩ | ⟨-, -, -, -, rfl⟩ |
      ⟨-, -, -, -, ⟨-, rfl⟩ | ⟨-, u, -, rfl⟩⟩
    · exact .inl ⟨.stateError, nofun, by simp [hp], rfl⟩
    · exact .inl ⟨.oversizedChunk, nofun, nofun, rfl⟩
    · exact .inl ⟨.lengthOverflow, nofun, nofun, rfl⟩
    · exact .inl ⟨.bufferFull, nofun, nofun, rfl⟩
    · exact .inr ⟨_, rfl⟩
    · exact .inr ⟨_, rfl⟩
  | finalize =>
    rcases execFinalize_cases h with ⟨hp, rfl⟩ | ⟨-, -, rfl⟩ | ⟨-, -, u, v, -, -, rfl⟩
    · exact .inl ⟨.stateError, nofun, by simp [hp], rfl⟩
    · exact .inl ⟨.emptyInput, nofun, nofun, rfl⟩
    · exact .inr ⟨_, rfl⟩
  | destroy =>
    rcases execDestroy_cases h with ⟨hp, rfl⟩ | ⟨-, rfl⟩
    · exact .inl ⟨.stateError, nofun, by simp [hp], rfl⟩
    · exact .inr ⟨_, rfl⟩

/-- Settles O14: a legal command raises another error or answers `OK`, an illegal one is refused whole. -/
theorem commandsOutsideTheirPhaseAreRefused : Obligations.CommandsOutsideTheirPhaseAreRefused := by
  intro s i
  rw [← legalIn_iff, Bool.not_eq_true]
  refine ⟨fun hlegal t dg h hport => ?legal, fun hillegal => ?illegal⟩
  case legal =>
    rcases exec_raises_or_ok h with ⟨e, -, hne, rfl⟩ | ⟨dg', hok⟩
    · exact hne hlegal (by simpa using hport : e = .stateError ∧ _).1
    · simp [hok] at hport
  case illegal => exact ⟨_, exec_outside_phase hillegal, raise_only _ s, Bool.or_true _⟩

/-! ### The phase after a command (R83) -/

/-- An error leaves the phase as it was. -/
theorem exec_error_phase {s t : State} {i : Instr} {e : Status} {dg : Option (BitVec 160)}
    (h : exec i s = .next t) (hport : t.port = some ⟨e, dg⟩) (he : e ≠ .ok) : t.phase = s.phase := by
  rcases exec_raises_or_ok h with ⟨e', -, -, rfl⟩ | ⟨dg', hok⟩
  · rfl
  · rw [hok] at hport
    cases hport
    exact absurd rfl he

/-- No `APPEND` moves the phase, performed or not. -/
theorem exec_append_phase {s t : State} {n : Nat} {d : List Byte} (h : exec (.append n d) s = .next t) :
    t.phase = s.phase := by
  rcases execAppend_cases h with ⟨-, rfl⟩ | ⟨-, -, rfl⟩ | ⟨-, -, -, rfl⟩ | ⟨-, -, -, -, rfl⟩ |
    ⟨-, -, -, -, ⟨-, rfl⟩ | ⟨-, u, hu, rfl⟩⟩
  iterate 5 rfl
  exact (absorb_answers hu).1

theorem exec_finalize_phase {s t : State} (ha : s.phase = .accum) (hN : nchunks s ≠ 0)
    (h : exec .finalize s = .next t) : t.phase = .done := by
  rcases execFinalize_cases h with ⟨hp, -⟩ | ⟨-, h0, -⟩ | ⟨-, -, u, v, -, -, rfl⟩
  · exact absurd ha hp
  · exact absurd h0 hN
  · rfl

theorem exec_finalize_empty {s : State} (ha : s.phase = .accum) (h0 : nchunks s = 0) :
    exec .finalize s = .next (raise .emptyInput s) := by
  rw [exec, execFinalize, if_neg (not_not_intro ha), if_pos h0]

/-- Settles O13, row by row of the table of R83. -/
theorem phaseFollowsTheTable : Obligations.PhaseFollowsTheTable := by
  refine ⟨fun s i t h => ⟨?create, ?append, ?finalize, ?empty, ?destroy, ?refused,
      fun e dg => exec_error_phase h⟩,
    fun s p rest why t hin hd h => ?illegal, fun s rest t hin h => ?reset⟩
  case create =>
    rintro hs rfl
    cases (exec_create_absent hs).symm.trans h
    rfl
  case append =>
    rintro hs n d rfl
    rw [exec_append_phase h, hs]
  case finalize =>
    rintro hs rfl hN
    exact exec_finalize_phase hs (by omega) h
  case empty =>
    rintro hs rfl h0
    cases (exec_finalize_empty hs h0).symm.trans h
    exact ⟨hs, rfl⟩
  case destroy =>
    rintro hs rfl
    have hexists : s.phase ≠ .absent := by rcases hs with hs | hs <;> simp [hs]
    cases (exec_destroy_existing hexists).symm.trans h
    rfl
  case refused =>
    intro hillegal
    cases (exec_outside_phase hillegal).symm.trans h
    exact ⟨rfl, rfl⟩
  case illegal =>
    cases (step_illegal hin hd).symm.trans h
    exact ⟨rfl, rfl⟩
  case reset =>
    cases (step_reset hin).symm.trans h
    rfl

end Sys2Proof.Machine
end

section
/-! PROOF. The family 41_chunkbuffer_append.md: what `APPEND` makes of the message (R94, R95), what it does not touch
(R97), and that the chunks and the digest depend on the bytes alone (R99). -/

namespace Sys2Proof.Machine

/-! ### The hash state apart from the chunks (R97) -/

/-- `s` with another `H` and another datapath and control state. -/
def withHashState (h : Words5) (tr : Transient) (s : State) : State := { s with h := h, tr := tr }

/-- What `o` answers, with another `H` and another datapath and control state. -/
def answerWithHashState (h : Words5) (tr : Transient) (o : Result State) : Result State :=
  andThen o fun t => .next (withHashState h tr t)

section
variable (h : Words5) (tr : Transient)

@[simp] theorem answerWithHashState_next (s : State) :
    answerWithHashState h tr (.next s) = .next (withHashState h tr s) := rfl

theorem memWrite_withHashState (s : State) (k o n : Nat) (v : List Byte) :
    memWrite (withHashState h tr s) k o n v = answerWithHashState h tr (memWrite s k o n v) := by
  rw [memWrite, memWrite, apply_ite (answerWithHashState h tr)]
  rfl

theorem newChunk_withHashState (s : State) :
    newChunk (withHashState h tr s) = withHashState h tr (newChunk s) := by
  simp only [newChunk, withHashState, nchunks]

theorem openTail_withHashState (s : State) :
    openTail (withHashState h tr s) = withHashState h tr (openTail s) := by
  rw [openTail, openTail, apply_ite (withHashState h tr), newChunk_withHashState]
  rfl

/-- A sequence is the same beside any other hash state when both its parts are. -/
theorem andThen_withHashState {o o' : Result State} {f : State → Result State}
    (ho : o' = answerWithHashState h tr o)
    (hf : ∀ s, f (withHashState h tr s) = answerWithHashState h tr (f s)) :
    andThen o' f = answerWithHashState h tr (andThen o f) := by
  rw [ho, answerWithHashState, answerWithHashState, andThen_assoc, andThen_assoc]
  exact congrArg (andThen o) (funext hf)

theorem spill_withHashState (r n : Nat) (d : List Byte) (s : State) :
    spill r n d (withHashState h tr s) = answerWithHashState h tr (spill r n d s) := by
  rw [spill, newChunk_withHashState]
  exact andThen_withHashState h tr (memWrite_withHashState h tr (newChunk s) _ _ _ _) fun _ => rfl

theorem fillTail_withHashState (k l r n : Nat) (d : List Byte) (s : State) :
    fillTail k l r n d (withHashState h tr s) = answerWithHashState h tr (fillTail k l r n d s) := by
  refine andThen_withHashState h tr (memWrite_withHashState h tr s _ _ _ _) fun u => ?_
  rw [apply_ite (answerWithHashState h tr), ← spill_withHashState]
  rfl

theorem absorb_withHashState (n : Nat) (d : List Byte) (s : State) :
    absorb n d (withHashState h tr s) = answerWithHashState h tr (absorb n d s) := by
  simp only [absorb, openTail_withHashState, ← fillTail_withHashState]
  rfl

/-- `APPEND` reads neither `H` nor the datapath nor the control state: its answer is the same beside any other. -/
theorem execAppend_withHashState (n : Nat) (d : List Byte) (s : State) :
    execAppend n d (withHashState h tr s) = answerWithHashState h tr (execAppend n d s) := by
  have hperformed : andThen (absorb n d (withHashState h tr s)) (fun u => .next (respondOk none u)) =
      answerWithHashState h tr (andThen (absorb n d s) fun u => .next (respondOk none u)) :=
    andThen_withHashState h tr (absorb_withHashState h tr n d s) fun _ => rfl
  simp only [execAppend, apply_ite (answerWithHashState h tr), ← hperformed]
  rfl

end

/-- `APPEND` writes neither `H` nor the datapath nor the control state, performed or refused. -/
theorem exec_append_hashState {s t : State} {n : Nat} {d : List Byte} (h : exec (.append n d) s = .next t) :
    t.h = s.h ∧ t.tr = s.tr := by
  rcases execAppend_cases h with ⟨-, rfl⟩ | ⟨-, -, rfl⟩ | ⟨-, -, -, rfl⟩ | ⟨-, -, -, -, rfl⟩ |
    ⟨-, -, -, -, ⟨-, rfl⟩ | ⟨-, u, hu, rfl⟩⟩
  iterate 5 exact ⟨rfl, rfl⟩
  obtain ⟨-, hh, htr, -⟩ := absorb_answers hu
  exact ⟨hh, htr⟩

/-- Settles O23, from what `APPEND` leaves and from its answer beside any other hash state. -/
theorem appendNeitherReadsNorWritesHashState : Obligations.AppendNeitherReadsNorWritesHashState := by
  intro s n d t happ
  obtain ⟨hh, htr⟩ := exec_append_hashState happ
  exact ⟨hh, htr, fun h tr =>
    (execAppend_withHashState h tr n d s).trans (congrArg (answerWithHashState h tr) happ)⟩

/-! ### The append of no bytes (R94) -/

theorem exec_append_zero {s : State} (ha : s.phase = .accum) (hm : totalBytes s ≤ 2 ^ 61 - 1)
    (hc : wouldExceedCapacity s 0 = false) (d : List Byte) :
    exec (.append 0 d) s = .next (respondOk none s) := by
  rw [exec, execAppend, if_neg (not_not_intro ha), if_neg (Nat.not_lt_zero _), if_neg (by unfold maxBytes; omega),
    if_neg (by simp [hc]), if_pos rfl]

/-- Settles O20: the answer is the old state with the response `OK`, which has no more chunks than before. -/
theorem zeroLengthAppendChangesNothing : Obligations.ZeroLengthAppendChangesNothing := fun s d ha hm hc =>
  ⟨_, exec_append_zero ha hm hc d, respondOk_only s, rfl, fun h0 =>
    ⟨_, exec_finalize_empty (s := respondOk none s) ha h0, rfl⟩⟩

/-! ### The invariants before and after `CREATE` and `APPEND` (R16) -/

/-- The invariants speak of the engine, its chunks, `H` and the phase only. -/
theorem Inv.of_frame {s t : State} (hI : Inv s)
    (h : t = { s with
      tr := t.tr, inputs := t.inputs, port := t.port, observed := t.observed, hostRead := t.hostRead
      faultMark := t.faultMark, freeIdx := t.freeIdx }) : Inv t := by
  rw [h]
  exact { hI with
    accumPacked := fun ha =>
      have hp := hI.accumPacked ha
      ⟨hp.lenBounds, hp.interiorFull, hp.unusedZero⟩ }

theorem inv_respondOk {s : State} (hI : Inv s) (dg : Option (BitVec 160)) : Inv (respondOk dg s) := hI.of_frame rfl

theorem inv_freshInstance {s : State} (hI : Inv s) : Inv (freshInstance s) where
  cfgWf := hI.cfgWf
  memWf := rfl
  memInside := nofun
  absentEmpty := nofun
  accumPacked _ := ⟨nofun, nofun, nofun⟩
  accumHash _ := rfl
  accumLength _ := Nat.zero_le _
  accumRoom _ m hm := by
    have hwf : Config.wf s.cfg = true := hI.cfgWf
    have hmax : s.cfg.maxChunks = some m := hm
    simp only [Config.wf, hmax, decide_eq_true_eq] at hwf
    exact Nat.le_of_succ_le hwf
  doneChunks := nofun

/-- `s` with the bytes `v` directly after the last stored one (R91). -/
def appendBytes (v : List Byte) (s : State) : State :=
  { s with
    mem := Memory.writeBytes s.mem (totalBytes s) v
    lens := packedLens (totalBytes s + v.length) }

/-- What a performed `APPEND` answers (R91, R95). -/
theorem exec_append_performed {s : State} {n : Nat} {d : List Byte} (hI : Inv s) (ha : s.phase = .accum)
    (hd : d.length = 64) (hn : n ≤ 64) (hm : totalBytes s + n ≤ 2 ^ 61 - 1)
    (hc : wouldExceedCapacity s n = false) :
    exec (.append n d) s = .next (respondOk none (appendBytes (d.take n) s)) := by
  have hlen : (d.take n).length = n := List.length_take_of_le (by omega)
  rw [appendBytes, hlen]
  exact execAppend_packed hI ha (by omega) hn hm hc

theorem packed_appendBytes {s : State} (hI : Inv s) (ha : s.phase = .accum) (v : List Byte) :
    ChunksPacked (appendBytes v s) := packed_of_lens rfl fun _ => zero_above_writeBytes hI ha

theorem inv_appendBytes {s : State} {v : List Byte} (hI : Inv s) (ha : s.phase = .accum)
    (hm : totalBytes s + v.length ≤ 2 ^ 61 - 1) (hc : wouldExceedCapacity s v.length = false) :
    Inv (appendBytes v s) := by
  have htotal : totalBytes (appendBytes v s) = totalBytes s + v.length := totalBytes_of_lens rfl
  have hchunks : nchunks (appendBytes v s) = (totalBytes s + v.length + 63) / 64 := nchunks_of_lens rfl
  refine ⟨hI.cfgWf, Memory.wf_writeBytes hI.memWf _ _, fun c hmem => ?inside, fun h => ?absent,
    fun _ => packed_appendBytes hI ha v, hI.accumHash, fun _ => htotal ▸ hm, fun _ m hmax => ?room, fun h => ?done⟩
  case inside =>
    have hold := (hI.accumPacked ha).nchunks_eq
    rcases Memory.mem_writeBytes hmem with h | h
    · have := hI.memInside c h
      omega
    · omega
  case absent => exact absurd (ha.symm.trans h) nofun
  case room =>
    have hfits : ¬ 64 * m < totalBytes s + v.length + 64 := fun h =>
      absurd ((wouldExceedCapacity_iff s v.length).mpr ⟨m, hmax, h⟩) (by simp [hc])
    omega
  case done => exact absurd (ha.symm.trans h) nofun

/-! ### The message that is held (R95) -/

/-- The engine accumulates, its state meets the invariants, and the message so far is `b`. -/
structure HoldsMessage (b : List Byte) (s : State) : Prop where
  inv : Inv s
  accum : s.phase = .accum
  message_eq : message s = b

/-- A response leaves the message as it was. -/
theorem holdsMessage_respondOk {b : List Byte} {s : State} (h : HoldsMessage b s) (dg : Option (BitVec 160)) :
    HoldsMessage b (respondOk dg s) := ⟨inv_respondOk h.inv dg, h.accum, h.message_eq⟩

theorem holdsMessage_freshInstance {s : State} (hI : Inv s) : HoldsMessage [] (freshInstance s) :=
  ⟨inv_freshInstance hI, rfl, rfl⟩

/-- A performed `APPEND` extends the message by the payload bytes that count. -/
theorem HoldsMessage.append {b d : List Byte} {s : State} {n : Nat} (h : HoldsMessage b s) (hd : d.length = 64)
    (hn : n ≤ 64) (hm : totalBytes s + n ≤ 2 ^ 61 - 1) (hc : wouldExceedCapacity s n = false) :
    HoldsMessage (b ++ d.take n) (respondOk none (appendBytes (d.take n) s)) := by
  have hlen : (d.take n).length = n := List.length_take_of_le (by omega)
  refine holdsMessage_respondOk ⟨inv_appendBytes h.inv h.accum (by rwa [hlen]) (by rwa [hlen]), h.accum, ?_⟩ none
  rw [message_appended h.inv h.accum rfl rfl, h.message_eq]

/-- Settles O21, from the answer of a performed `APPEND` and the message it holds. -/
theorem appendExtendsTheMessage : Obligations.AppendExtendsTheMessage := by
  intro s n d hI ha hwf hn hm hc
  have hd := payload_length_of_wf hwf
  have h := HoldsMessage.append ⟨hI, ha, rfl⟩ hd hn hm hc
  exact ⟨_, exec_append_performed hI ha hd hn hm hc, rfl, h.message_eq, h.inv.accumPacked h.accum⟩

/-! ### The chunks and the digest are functions of the message (R99) -/

theorem HoldsMessage.totalBytes_eq {b : List Byte} {s : State} (h : HoldsMessage b s) : totalBytes s = b.length := by
  rw [← (h.inv.accumPacked h.accum).message_length, h.message_eq]

theorem HoldsMessage.lens_eq {b : List Byte} {s : State} (h : HoldsMessage b s) : s.lens = packedLens b.length := by
  rw [← h.totalBytes_eq]
  exact (h.inv.accumPacked h.accum).lens_eq

/-- Chunk memory reads the message from address 0 on, and zeros after it. -/
theorem HoldsMessage.readByte_eq {b : List Byte} {s : State} (h : HoldsMessage b s) (a : Nat) :
    Memory.readByte s.mem a = b.getD a 0#8 := by
  have hp := h.inv.accumPacked h.accum
  have hb : readRange s.mem 0 (totalBytes s) = b := hp.message_eq.symm.trans h.message_eq
  rcases Nat.lt_or_ge a (totalBytes s) with hlt | hge
  · simp [← hb, readRange, hlt]
  · rw [hp.zero_above h.inv.memInside hge, List.getD_eq_default _ _ (h.totalBytes_eq ▸ hge)]

theorem HoldsMessage.mem_eq {b : List Byte} {s t : State} (hs : HoldsMessage b s) (ht : HoldsMessage b t) :
    s.mem = t.mem :=
  Memory.ext_of_wf hs.inv.memWf ht.inv.memWf fun a => (hs.readByte_eq a).trans (ht.readByte_eq a).symm

/-- The response to a `FINALIZE` on the message `b` (R144, R163). -/
def finalizeResponse (b : List Byte) : Response :=
  if b = [] then ⟨.emptyInput, none⟩ else ⟨.ok, some (digestOf (sha1 b))⟩

theorem HoldsMessage.finalize {b : List Byte} {s : State} (h : HoldsMessage b s) :
    ∃ t, exec .finalize s = .next t ∧ t.port = some (finalizeResponse b) := by
  have hchunks : nchunks s = (b.length + 63) / 64 := nchunks_of_lens h.lens_eq
  by_cases hb : b = []
  · refine ⟨_, exec_finalize_empty h.accum (by simp [hchunks, hb]), ?_⟩
    rw [finalizeResponse, if_pos hb]
    rfl
  · have hpos := List.length_pos_of_ne_nil hb
    obtain ⟨r, hr⟩ := execFinalize_packed h.inv h.accum (by omega)
    refine ⟨_, hr, ?_⟩
    rw [finishFinalize_port, finalizeResponse, if_neg hb, h.message_eq]

/-! ### Runs of appends that are all answered `OK` -/

/-- Every command adds its own response, and no other, to the observation of the run (R196). -/
theorem exec_observed {s t : State} {i : Instr} (h : exec i s = .next t) :
    ∃ r, t.port = some r ∧ t.observed = s.observed ++ [r] := by
  cases i with
  | create => rcases execCreate_cases h with ⟨-, rfl⟩ | ⟨-, rfl⟩ <;> exact ⟨_, rfl, rfl⟩
  | append n d =>
    rcases execAppend_cases h with ⟨-, rfl⟩ | ⟨-, -, rfl⟩ | ⟨-, -, -, rfl⟩ | ⟨-, -, -, -, rfl⟩ |
      ⟨-, -, -, -, ⟨-, rfl⟩ | ⟨-, u, hu, rfl⟩⟩
    iterate 5 exact ⟨_, rfl, rfl⟩
    obtain ⟨-, -, -, -, hport, hobs, -⟩ := absorb_answers hu
    exact ⟨_, hport, hobs⟩
  | finalize =>
    rcases execFinalize_cases h with ⟨-, rfl⟩ | ⟨-, -, rfl⟩ | ⟨-, -, u, v, hu, hv, rfl⟩
    · exact ⟨_, rfl, rfl⟩
    · exact ⟨_, rfl, rfl⟩
    · obtain ⟨-, -, hport, hobs, -⟩ := finalize_answers hu hv
      exact ⟨_, hport, hobs⟩
  | destroy => rcases execDestroy_cases h with ⟨-, rfl⟩ | ⟨-, rfl⟩ <;> exact ⟨_, rfl, rfl⟩

theorem runCommands_observed {is : List Instr} {s t : State} (h : runCommands is s = .next t) :
    ∃ rs, rs.length = is.length ∧ t.observed = s.observed ++ rs := by
  induction is generalizing s with
  | nil =>
    cases h
    exact ⟨[], rfl, (List.append_nil _).symm⟩
  | cons i is ih =>
    obtain ⟨u, hu, h⟩ := andThen_eq_next.mp h
    obtain ⟨r, -, hr⟩ := exec_observed hu
    obtain ⟨rs, hlen, hrs⟩ := ih h
    exact ⟨r :: rs, by simp [hlen], by simp [hrs, hr]⟩

/-- The run answers `OK`, without a digest, to each of its commands. -/
def AnswersOk (is : List Instr) (s t : State) : Prop :=
  runCommands is s = .next t ∧ t.observed = s.observed ++ List.replicate is.length ⟨.ok, none⟩

/-- In such a run the first command and the run of the others are answered `OK`. -/
theorem AnswersOk.uncons {i : Instr} {is : List Instr} {s t : State} (h : AnswersOk (i :: is) s t) :
    ∃ u, exec i s = .next u ∧ u.port = some ⟨.ok, none⟩ ∧ AnswersOk is u t := by
  obtain ⟨hrun, hobs⟩ := h
  obtain ⟨u, hu, hrun⟩ := andThen_eq_next.mp hrun
  obtain ⟨r, hport, hr⟩ := exec_observed hu
  obtain ⟨rs, -, hrs⟩ := runCommands_observed hrun
  have hall : r :: rs = List.replicate (is.length + 1) ⟨.ok, none⟩ := by
    rw [hrs, hr, List.append_assoc] at hobs
    exact List.append_cancel_left hobs
  obtain ⟨rfl, rfl⟩ := List.cons.inj hall
  exact ⟨u, hu, hport, hrun, hrs⟩

/-- An `APPEND` answered `OK` passed every check (R90). -/
theorem exec_append_ok {s t : State} {n : Nat} {d : List Byte} (h : exec (.append n d) s = .next t)
    (hport : t.port = some ⟨.ok, none⟩) :
    n ≤ 64 ∧ totalBytes s + n ≤ 2 ^ 61 - 1 ∧ wouldExceedCapacity s n = false := by
  rcases execAppend_cases h with ⟨-, rfl⟩ | ⟨-, -, rfl⟩ | ⟨-, -, -, rfl⟩ | ⟨-, -, -, -, rfl⟩ |
    ⟨-, hn, hm, hc, -⟩
  iterate 4 cases hport
  exact ⟨hn, hm, hc⟩

/-- A run of appends answered `OK` extends the message by all their payloads, in order. -/
theorem HoldsMessage.appends {cs : List (Nat × List Byte)} {b : List Byte} {s t : State} (hs : HoldsMessage b s)
    (hwf : ∀ c ∈ cs, (Instr.append c.1 c.2).wf = true)
    (h : AnswersOk (cs.map fun c => .append c.1 c.2) s t) :
    HoldsMessage (b ++ cs.flatMap fun c => c.2.take c.1) t := by
  induction cs generalizing b s with
  | nil =>
    cases h.1
    simpa using hs
  | cons c cs ih =>
    obtain ⟨hc, hcs⟩ := List.forall_mem_cons.mp hwf
    obtain ⟨u, hu, hport, hrest⟩ := h.uncons
    have hd := payload_length_of_wf hc
    obtain ⟨hn, hm, hcap⟩ := exec_append_ok hu hport
    cases (exec_append_performed hs.inv hs.accum hd hn hm hcap).symm.trans hu
    rw [List.flatMap_cons, ← List.append_assoc]
    exact ih (hs.append hd hn hm hcap) hcs hrest

/-- After a run of `CREATE` and appends, all answered `OK`, the message is what the appends carried. -/
theorem holdsMessage_of_answersOk {cs : List (Nat × List Byte)} {s t : State} (hI : Inv s) (ha : s.phase = .absent)
    (hwf : ∀ c ∈ cs, (Instr.append c.1 c.2).wf = true)
    (h : AnswersOk (.create :: cs.map fun c => .append c.1 c.2) s t) :
    HoldsMessage (cs.flatMap fun c => c.2.take c.1) t := by
  obtain ⟨u, hu, -, hrest⟩ := h.uncons
  cases (exec_create_absent ha).symm.trans hu
  exact (holdsMessage_respondOk (holdsMessage_freshInstance hI) none).appends hwf hrest

/-- Settles O25: both runs end with the same message, which fixes the chunks and the response. -/
theorem chunkingDoesNotMatter : Obligations.ChunkingDoesNotMatter := by
  intro s t u cs ds hI ha hcs hds hbytes hrunt hrunu hokt hoku
  have ht := holdsMessage_of_answersOk hI ha hcs ⟨hrunt, by simpa using hokt⟩
  have hu := holdsMessage_of_answersOk hI ha hds ⟨hrunu, by simpa using hoku⟩
  rw [← hbytes] at hu
  obtain ⟨t', ht', hportt⟩ := ht.finalize
  obtain ⟨u', hu', hportu⟩ := hu.finalize
  exact ⟨ht.mem_eq hu, ht.lens_eq.trans hu.lens_eq.symm, t', u', ht', hu', hportt.trans hportu.symm⟩

end Sys2Proof.Machine
end

section
/-! PROOF. The family 42_padder.md: where `PAD` writes (R107 to R110, R112), the padded message it leaves in the
chunks (R111), and the length latched before it (R106). -/

namespace Sys2Proof.Machine

/-! ### The length field (R110) -/

theorem lengthByte_eq_ofNat (ml : BitVec 64) (i : Nat) :
    lengthByte ml i = BitVec.ofNat 8 (ml.toNat / 2 ^ (8 * (7 - i))) := by
  rw [lengthByte, BitVec.extractLsb', Nat.shiftRight_eq_div_pow]

theorem be64_getD (ml : BitVec 64) {i : Nat} (hi : i < 8) : (be64 ml).getD i 0#8 = lengthByte ml i := by
  simp [be64, hi]

/-! ### The bytes of chunk memory after `PAD` -/

section
variable {m : Memory} (hwf : Memory.wf m = true) (x : Nat) (ml : BitVec 64)
include hwf

theorem readByte_paddedMem_lengthField {i : Nat} (hi : i < 8) :
    Memory.readByte (paddedMem m x ml) (64 * ((x + 8) / 64) + 56 + i) = lengthByte ml i := by
  rw [paddedMem, Memory.readByte_writeBytes (Memory.wf_writeBytes hwf _ _), if_pos (by rw [be64_length]; omega),
    Nat.add_sub_cancel_left, be64_getD ml hi]

/-- Outside the length field only the store of the marker is seen. -/
theorem readByte_paddedMem_outsideField {a : Nat}
    (ha : ¬ (64 * ((x + 8) / 64) + 56 ≤ a ∧ a < 64 * ((x + 8) / 64) + 64)) :
    Memory.readByte (paddedMem m x ml) a = if a = x then marker else Memory.readByte m a := by
  rw [paddedMem, Memory.readByte_writeBytes (Memory.wf_writeBytes hwf _ _), if_neg (by rw [be64_length]; omega),
    Memory.readByte_writeBytes hwf]
  by_cases hax : a = x
  · simp [hax]
  · rw [if_neg hax, if_neg (by rw [List.length_singleton]; omega)]

/-- The message and the marker end before the length field begins. -/
theorem readByte_paddedMem_marker : Memory.readByte (paddedMem m x ml) x = marker := by
  rw [readByte_paddedMem_outsideField hwf x ml (by omega), if_pos rfl]

end

/-! ### The state after `PAD` -/

/-- The state `PAD` leaves on a packed chunk sequence (R105). -/
def padded (s : State) : State :=
  startWalk { s with mem := paddedMem s.mem (totalBytes s) s.tr.ml, lens := paddedLens (totalBytes s) }

theorem nchunks_padded (s : State) : nchunks (padded s) = (totalBytes s + 8) / 64 + 1 :=
  paddedLens_length (totalBytes s)

/-- `TOTAL_BYTES` is the same after `PAD`: a chunk it makes has `len` 0 (R106, R112). -/
theorem totalBytes_padded (s : State) : totalBytes (padded s) = totalBytes s := by
  change (paddedLens (totalBytes s)).sum = totalBytes s
  simp [paddedLens]

theorem inv_latchLength {s : State} (hI : Inv s) : Inv (latchLength s) := hI.of_frame rfl

section
variable {s : State} (hI : Inv s) (ha : s.phase = .accum)
include hI ha

theorem microPad_eq_padded (hN : 1 ≤ nchunks s) : microPad s = .next (padded s) :=
  microPad_packed hI.memWf hI.memInside (hI.accumPacked ha) hN

/-- The message ends in the tail, after the tail's occupied bytes (R17). -/
theorem totalBytes_eq_tail (hN : 1 ≤ nchunks s) :
    totalBytes s = 64 * (nchunks s - 1) + chunkLen s (nchunks s - 1) := by
  have hp := hI.accumPacked ha
  have hchunks := hp.nchunks_eq
  have hlen := hp.chunkLen_eq (k := nchunks s - 1) (by omega)
  omega

/-- `PAD` changes no `len`, and a chunk it makes has the `len` 0 of a chunk that does not exist (R112). -/
theorem chunkLen_padded (k : Nat) : chunkLen (padded s) k = chunkLen s k := by
  have hlens : (padded s).lens = s.lens ++ List.replicate (blockCount (totalBytes s) - (totalBytes s + 63) / 64) 0 := by
    conv_rhs => rw [(hI.accumPacked ha).lens_eq]
    rfl
  rw [chunkLen, chunkLen, hlens]
  rcases Nat.lt_or_ge k s.lens.length with hk | hk
  · rw [List.getD_append _ _ _ _ hk]
  · rw [List.getD_append_right _ _ _ _ hk, List.getD_eq_default _ _ hk, List.getD_eq_getElem?_getD,
      List.getElem?_getD_replicate_default_eq]

theorem chunkByte_padded_zero {k o : Nat} (hpast : totalBytes s < 64 * k + o)
    (hfield : ¬ (64 * ((totalBytes s + 8) / 64) + 56 ≤ 64 * k + o ∧
      64 * k + o < 64 * ((totalBytes s + 8) / 64) + 64)) :
    chunkByte (padded s) k o = 0#8 := by
  change Memory.readByte (paddedMem s.mem (totalBytes s) s.tr.ml) (64 * k + o) = 0#8
  rw [readByte_paddedMem_outsideField hI.memWf _ _ hfield, if_neg (by omega),
    (hI.accumPacked ha).zero_above hI.memInside (by omega)]

/-- After `PAD` the chunks hold the message, the marker, the zeros and the length field (R111). -/
theorem storedBytes_padded :
    storedBytes (padded s) =
      message s ++ [marker] ++ List.replicate (zeroFill (totalBytes s)) 0#8 ++ be64 s.tr.ml := by
  have hp := hI.accumPacked ha
  rw [storedBytes_eq, nchunks_padded, hp.message_eq]
  exact readRange_paddedMem hI.memWf (fun a => hp.zero_above hI.memInside) s.tr.ml

/-- The latched length is no larger than the field that holds it (R96, R106). -/
theorem totalBits_toNat : (totalBits s).toNat = 8 * totalBytes s := by
  have hlength := hI.accumLength ha
  rw [totalBits, BitVec.toNat_ofNat, Nat.mod_eq_of_lt (by omega)]

end

/-! ### The statements -/

/-- Settles O26: with `l` bytes in the tail the message ends at its offset `l`, and the last chunk is a new one where
`l` is at least 56; each clause is then the address of the marker, of the length field, or of neither. -/
theorem padWritesMarkerAndLengthField : Obligations.PadWritesMarkerAndLengthField := by
  intro s hI ha hN
  have htail := totalBytes_eq_tail hI ha hN
  obtain ⟨hpos, hle⟩ := (hI.accumPacked ha).lenBounds (nchunks s - 1) (by omega)
  have hchunks := nchunks_padded s
  have hmarker : ∀ k o, 64 * k + o = totalBytes s → chunkByte (padded s) k o = 0x80#8 := fun k o h => by
    rw [chunkByte, cellAddr, chunkCap, h]
    exact readByte_paddedMem_marker hI.memWf _ _
  refine ⟨padded s, microPad_eq_padded hI ha hN, fun h => ?sameChunks, fun h => ⟨?newChunk, ?newLen⟩,
    fun h => hmarker _ _ htail.symm, fun h => hmarker _ _ (by omega), fun i hi => ?lengthField,
    fun o ho hlo h => chunkByte_padded_zero hI ha (by omega) (by omega),
    fun o ho hlo => chunkByte_padded_zero hI ha (by omega) (by omega),
    fun o ho h hlo => chunkByte_padded_zero hI ha (by omega) (by omega),
    fun a hne hfield => ?otherBytes, fun k _ => chunkLen_padded hI ha k, rfl⟩
  case sameChunks => omega
  case newChunk => omega
  case newLen =>
    rw [chunkLen_padded hI ha]
    exact List.getD_eq_default _ _ (Nat.le_refl s.lens.length)
  case lengthField =>
    have hbyte : chunkByte (padded s) (nchunks (padded s) - 1) (56 + i) = lengthByte s.tr.ml i := by
      rw [hchunks, Nat.add_sub_cancel, chunkByte, cellAddr, ← Nat.add_assoc]
      exact readByte_paddedMem_lengthField hI.memWf _ _ hi
    rw [hbyte, lengthByte_eq_ofNat, BitVec.toNat_ofNat]
  case otherBytes =>
    rw [← htail] at hne
    rw [hchunks, Nat.add_sub_cancel] at hfield
    exact (readByte_paddedMem_outsideField hI.memWf _ _ hfield).trans (if_neg hne)

/-- Settles O27, from the stored bytes after `PAD` and the value of the latched length. -/
theorem paddedMessageFillsWholeBlocks : Obligations.PaddedMessageFillsWholeBlocks := by
  intro s hI ha hN
  have hzero := zeroFill_eq (totalBytes s)
  rw [(hI.accumPacked ha).message_length]
  refine ⟨padded (latchLength s), zeroFill (totalBytes s), microPad_eq_padded (inv_latchLength hI) ha hN, ?bytes,
    ?residue, fun y hy => ?least, nchunks_padded (latchLength s)⟩
  case bytes =>
    have hfield : be64 (totalBits s) =
        (List.range 8).map fun i => BitVec.ofNat 8 (8 * totalBytes s / 2 ^ (8 * (7 - i))) := by
      simp only [be64, funext (lengthByte_eq_ofNat (totalBits s)), totalBits_toNat hI ha]
    rw [← hfield]
    exact storedBytes_padded (inv_latchLength hI) ha
  case residue => omega
  case least => omega

/-- Settles O28: `TOTAL_BYTES` is at most 2^61 - 1 by the invariants, so 8 `TOTAL_BYTES`
does not wrap in the 64 bits of `ML`. -/
theorem lengthIsLatchedBeforePadding : Obligations.LengthIsLatchedBeforePadding := by
  intro s hI ha hN
  have hml := totalBits_toNat hI ha
  have hlength := hI.accumLength ha
  refine ⟨hml, ?multiple, ?bound, padded (latchLength s), microPad_eq_padded (inv_latchLength hI) ha hN, rfl, ?kept⟩
  case multiple => rw [latchLength_tr_ml, hml, Nat.mul_mod_right]
  case bound => rw [latchLength_tr_ml, hml]; omega
  case kept =>
    have htotal : totalBytes (padded (latchLength s)) = totalBytes s := totalBytes_padded (latchLength s)
    rw [totalBits, totalBits, htotal]

end Sys2Proof.Machine
end

section
/-! PROOF. The family 43_schedule_expander.md: the words `EXPAND` leaves in the schedule (R116), with the rotation of
the model as the rotation of the library (R126). -/

namespace Sys2Proof.Machine

/-- The two shifts of the model are the library's rotation, for the counts R126 allows. -/
theorem rotl32_eq_rotateLeft (x : Word) {n : Nat} (hn : n < 32) : rotl32 x n = x.rotateLeft n := by
  rw [rotl32, BitVec.rotateLeft, BitVec.rotateLeftAux, Nat.mod_eq_of_lt hn]

/-- Settles O30, from the sums `EXPAND` leaves in the words 16 to 79 and the words of the block it leaves alone. -/
theorem expandFollowsTheRecurrence : Obligations.ExpandFollowsTheRecurrence := by
  intro s
  refine ⟨fun i hlo hi => ?recurrence, fun i hi => expandWords_low s.tr.w ⟨i, by omega⟩ hi, rfl⟩
  case recurrence =>
    simp only [microExpand_tr_w]
    rw [← rotl32_eq_rotateLeft _ (by decide)]
    exact expandWords_getElem s.tr.w ⟨i, hi⟩ hlo

end Sys2Proof.Machine
end

section
/-! PROOF. The family 44_compressor.md: the round function bit by bit (R121), the round constants (R122), one round
(R123), `INIT` and `FOLD` (R120, R124), and one pass of the block walk (R128). -/

namespace Sys2Proof.Machine

/-! ### The round function in the ranges of the rounds (R121) -/

section
variable {t : Fin 80} (b c d : Word)

theorem roundF_choose (h : t.val ≤ 19) : roundF t b c d = (b &&& c) ||| (~~~b &&& d) := if_pos h

theorem roundF_parity (h : 20 ≤ t.val ∧ t.val ≤ 39 ∨ 60 ≤ t.val) : roundF t b c d = b ^^^ c ^^^ d := by
  rw [roundF, if_neg (by omega)]
  rcases h with ⟨_, hle⟩ | hge
  · rw [if_pos hle]
  · rw [if_neg (by omega), if_neg (by omega)]

theorem roundF_majority (h : 40 ≤ t.val ∧ t.val ≤ 59) :
    roundF t b c d = (b &&& c) ||| (b &&& d) ||| (c &&& d) := by
  rw [roundF, if_neg (by omega), if_neg (by omega), if_pos h.2]

end

/-- Two of three bits are 1 just where some pair of them is. -/
theorem somePair_eq_atLeastTwo (x y z : Bool) :
    (x && y || x && z || y && z) = decide (2 ≤ x.toNat + y.toNat + z.toNat) := by
  revert x y z
  decide

/-- Settles O32: in each range the round function is one formula, whose bit `j` is the same formula of the bits. -/
theorem roundFunctionIsChooseParityMajority : Obligations.RoundFunctionIsChooseParityMajority := by
  refine fun t b c d j hj => ⟨fun h => ?choose, fun h => ?parity, fun h => ?majority⟩
  case choose =>
    rw [roundF_choose b c d h, BitVec.getLsbD_or, BitVec.getLsbD_and, BitVec.getLsbD_and, BitVec.getLsbD_not,
      decide_eq_true hj]
    cases b.getLsbD j <;> simp
  case parity => rw [roundF_parity b c d h, BitVec.getLsbD_xor, BitVec.getLsbD_xor, Bool.xor_assoc]
  case majority =>
    rw [roundF_majority b c d h, ← somePair_eq_atLeastTwo]
    simp only [BitVec.getLsbD_or, BitVec.getLsbD_and]

/-- Settles O33, from the range of the rounds that each test of `roundK` leaves. -/
theorem roundConstantsChangeEveryTwentyRounds : Obligations.RoundConstantsChangeEveryTwentyRounds := by
  refine fun t => ⟨fun h => if_pos h, fun h => ?second, fun h => ?third, fun h => ?fourth⟩
  case second => rw [roundK, if_neg (by omega), if_pos h.2]
  case third => rw [roundK, if_neg (by omega), if_neg (by omega), if_pos h.2]
  case fourth => rw [roundK, if_neg (by omega), if_neg (by omega), if_neg (by omega)]

/-! ### One round, `INIT` and `FOLD` (R120, R123, R124) -/

/-- The four additions of `TEMP`, each modulo 2^32, are one sum modulo 2^32 (R125). -/
theorem roundTemp_toNat (t : Fin 80) (w : Vector Word 80) (a : Words5) :
    (roundTemp t w a).toNat = ((a.w0.rotateLeft 5).toNat + (roundF t a.w1 a.w2 a.w3).toNat + a.w4.toNat +
      w[t].toNat + (roundK t).toNat) % 2 ^ 32 := by
  rw [roundTemp, rotl32_eq_rotateLeft _ (by decide)]
  simp only [BitVec.toNat_add, Nat.mod_add_mod]

theorem nextRound_last {t : Fin 80} (h : t.val = 79) : nextRound t = t := dif_neg (by omega)

/-- Settles O34, from `TEMP` as a number and the round that follows in each of the two cases of `T`. -/
theorem roundShiftsTheWorkingRegisters : Obligations.RoundShiftsTheWorkingRegisters := by
  refine fun s => ⟨roundTemp_toNat _ _ _, ?registers, fun h => ⟨nextRound_val h, if_pos h⟩,
    fun h => ⟨nextRound_last h, if_neg (by omega)⟩, _, _, _, _, rfl⟩
  case registers =>
    rw [microRound_tr_a, microRound_tr_temp, roundWork, rotl32_eq_rotateLeft _ (by decide)]

/-- Settles O35: the clauses on `INIT` and the two frames are the record updates of the model, and each word of `H`
after `FOLD` is a sum of two words. -/
theorem initCopiesAndFoldAdds : Obligations.InitCopiesAndFoldAdds := fun _ =>
  ⟨rfl, rfl, rfl, BitVec.toNat_add _ _, BitVec.toNat_add _ _, BitVec.toNat_add _ _, BitVec.toNat_add _ _,
    BitVec.toNat_add _ _, _, _, rfl⟩

/-! ### One pass of the block walk (R128) -/

/-- Settles O37, from what one pass answers, with the 64 bytes it reads as the data of chunk `BLK`. -/
theorem onePassCompressesOneBlock : Obligations.OnePassCompressesOneBlock := by
  intro s h
  obtain ⟨w, a, temp, t, f, hpass⟩ := blockPass_eq h
  exact ⟨_, hpass, congrArg (compress s.h) (chunkData_eq s s.tr.blk 64).symm, rfl⟩

end Sys2Proof.Machine
end

section
/-! PROOF. The family 45_finalize_digest.md: the transitions of the control table (R143) and the run of micro-steps that
ends where the atomic `FINALIZE` ends (R141), the digest a successful `FINALIZE` answers (R142, R144) and its two forms
(R146), what is held in `DONE` (R145, R148), and the whole command sequence (R149). -/

namespace Sys2Proof

theorem payloadLanes_toList {d : List Byte} (h : d.length = 64) : (payloadLanes d).toList = d := by
  apply List.ext_getElem
  · simp [h]
  · intro j _ hj
    simp [payloadLanes, hj]

/-- The encoder's word spells the command (R62). -/
theorem spells_encode {i : Instr} (h : i.wf = true) : Spells (encode i) i := by
  cases i with
  | append n d =>
    simp only [Instr.wf, lengthFits, payloadFits, Bool.and_eq_true, decide_eq_true_eq] at h
    obtain ⟨hn, hd⟩ := h
    refine ⟨opField_commandWord _ _, ?_, (payloadLanes_toList hd).symm⟩
    rw [encode, lenField_commandWord, BitVec.toNat_ofNat, Nat.mod_eq_of_lt hn]
  | create | finalize | destroy => exact eq_commandWord_iff.mp rfl

end Sys2Proof

namespace Sys2Proof.Machine

/-! ### The digest as a number and as bytes (R146) -/

theorem toNat_append_word {n : Nat} (x : BitVec n) (w : Word) : (x ++ w).toNat = x.toNat * 2 ^ 32 + w.toNat := by
  rw [BitVec.toNat_append, ← Nat.shiftLeft_add_eq_or_of_lt w.isLt, Nat.shiftLeft_eq]

/-- The twenty bytes, one by one. -/
theorem digestBytes_getD (h : Words5) (i : Fin 5) {j : Nat} (hj : j < 4) :
    (digestBytes h).getD (4 * i.val + j) 0#8 = (hashWord h i).extractLsb' (24 - 8 * j) 8 := by
  fin_cases i <;> interval_cases j <;> rfl

/-- Settles O45: each word appended below shifts the number by 32 bits, and byte `j` of a word is its bits from
`24 - 8j` on. -/
theorem digestIsTheBigEndianConcatenation : Obligations.DigestIsTheBigEndianConcatenation := by
  refine fun h => ⟨?number, rfl, fun i j hj => ?byte⟩
  case number =>
    simp only [digestOf, toNat_append_word]
    omega
  case byte => rw [digestBytes_getD h i hj, BitVec.extractLsb'_toNat, Nat.shiftRight_eq_div_pow]

/-! ### What is held in `DONE` (R145, R148) -/

/-- In `DONE` every command but `DESTROY` is refused whole. -/
theorem exec_done {s : State} {i : Instr} (hdone : s.phase = .done) (hi : i ≠ .destroy) :
    exec i s = .next (raise .stateError s) := by
  refine exec_outside_phase ?_
  rw [hdone, ← Bool.not_eq_true, legalIn_iff]
  simp [hi]

/-- Settles O46: a refused command changes neither the phase nor `H`, and a read of the port is no command. -/
theorem digestIsHeldWhileDone : Obligations.DigestIsHeldWhileDone := by
  refine fun s hdone => ⟨digestPort_of_done hdone, fun i t h hi => ?command, fun rest hin => ?read⟩
  case command =>
    cases (exec_done hdone hi).symm.trans h
    exact ⟨hdone, rfl, rfl⟩
  case read =>
    rw [step_readDigest hin, readDigestPort, digestPort_of_done (s := withInputs s rest) hdone]
    rfl

/-- Settles O48, by induction on the commands: each is refused whole, so the next one meets `DONE` again. -/
theorem oneInstanceGivesOneDigest : Obligations.OneInstanceGivesOneDigest := by
  intro cmds
  induction cmds with
  | nil =>
    intro s t hdone _ hrun
    cases hrun
    exact ⟨hdone, rfl, (List.append_nil _).symm⟩
  | cons i cmds ih =>
    intro s t hdone hno hrun
    obtain ⟨hi, hno⟩ := not_or.mp (mt List.mem_cons.mpr hno)
    rw [runCommands, exec_done hdone (Ne.symm hi), andThen_next] at hrun
    obtain ⟨hphase, hh, hobs⟩ := ih (raise .stateError s) t hdone hno hrun
    exact ⟨hphase, hh, by simp [hobs, List.replicate_succ]⟩

/-! ### The transitions of the control table (R143) -/

section
variable {s : State}

theorem microStep_pad (h : s.tr.fstep = .pad) : microStep s = andThen (microPad s) fun u => .next (.running u) := by
  rw [microStep, h]

theorem microStep_load (h : s.tr.fstep = .load) :
    microStep s = andThen (microLoad s) fun u => .next (.running u) := by
  rw [microStep, h]

theorem microStep_expand (h : s.tr.fstep = .expand) : microStep s = .next (.running (microExpand s)) := by
  rw [microStep, h]

theorem microStep_init (h : s.tr.fstep = .init) : microStep s = .next (.running (microInit s)) := by
  rw [microStep, h]

theorem microStep_round (h : s.tr.fstep = .round) : microStep s = .next (.running (microRound s)) := by
  rw [microStep, h]

theorem microStep_fold_more (h : s.tr.fstep = .fold) (hmore : s.tr.blk + 1 < s.tr.nb) :
    microStep s = .next (.running (microFold s)) := by
  rw [microStep, h]
  exact if_pos (decide_eq_true hmore)

theorem microStep_fold_last (h : s.tr.fstep = .fold) (hlast : s.tr.blk + 1 = s.tr.nb) :
    microStep s = .next (.answered (finishFinalize (microFold s))) := by
  rw [microStep, h]
  exact if_neg (by simp [moreBlocks, hlast])

theorem microFold_more (hmore : s.tr.blk + 1 < s.tr.nb) :
    (microFold s).tr.fstep = .load ∧ (microFold s).tr.blk = s.tr.blk + 1 :=
  ⟨if_pos (decide_eq_true hmore), if_pos (decide_eq_true hmore)⟩

end

/-- The marker case of `PAD` changes chunk memory and the lengths only, in every state. -/
theorem writeMarker_frame {s t : State} {k l : Nat} (h : writeMarker k l s = .next t) :
    t = { s with mem := t.mem, lens := t.lens } := by
  unfold writeMarker at h
  split at h
  · rw [memWrite_frame h]
  · split at h
    · obtain ⟨u, hu, h⟩ := andThen_eq_next.mp h
      obtain ⟨v, hv, h⟩ := andThen_eq_next.mp h
      cases h
      rw [newChunk, memWrite_frame hv, memWrite_frame hu]
    · rw [memWrite_frame h, newChunk]

/-- `PAD` ends with the start of the block walk, and changes nothing else of the control state. -/
theorem microPad_eq_startWalk {s t : State} (h : microPad s = .next t) :
    t = startWalk { s with mem := t.mem, lens := t.lens } := by
  obtain ⟨u, hu, h⟩ := andThen_eq_next.mp h
  obtain ⟨v, hv, h⟩ := andThen_eq_next.mp h
  cases h
  rw [memWrite_frame hv, writeMarker_frame hu]
  rfl

theorem microLoad_control {s t : State} (h : microLoad s = .next t) :
    t.tr.fstep = .expand ∧ t.tr.blk = s.tr.blk ∧ t.tr.nb = s.tr.nb := by
  obtain ⟨m, -, h⟩ := andThen_eq_next.mp h
  cases h
  exact ⟨rfl, rfl, rfl⟩

/-- A micro-step that runs on after one operation stands where that operation ends. -/
theorem andThen_running {o : Result State} {u : State}
    (h : andThen o (fun v => .next (Progress.running v)) = .next (.running u)) : o = .next u := by
  obtain ⟨v, hv, h⟩ := andThen_eq_next.mp h
  cases h
  exact hv

/-- Settles O41, row by row of the table of R143. -/
theorem microStepsFollowTheControlTable : Obligations.MicroStepsFollowTheControlTable := by
  refine fun s => ⟨⟨rfl, rfl⟩, fun u hf h => ?pad, fun u hf h => ?load, fun hf => ⟨_, microStep_expand hf, ?expand⟩,
    fun hf => ⟨_, microStep_init hf, rfl, rfl⟩,
    fun hf ht => ⟨_, microStep_round hf, if_pos ht, nextRound_val ht⟩,
    fun hf ht => ⟨_, microStep_round hf, if_neg (by omega)⟩,
    fun hf hmore => ⟨_, microStep_fold_more hf hmore, microFold_more hmore⟩,
    fun hf hlast => ⟨_, microStep_fold_last hf hlast, rfl, rfl⟩⟩
  case pad =>
    rw [microStep_pad hf] at h
    rw [microPad_eq_startWalk (andThen_running h)]
    exact ⟨rfl, rfl, rfl, rfl⟩
  case load =>
    rw [microStep_load hf] at h
    exact (microLoad_control (andThen_running h)).1
  case expand => exact microExpand_tr_fstep s

/-! ### The digest a successful `FINALIZE` answers (R142, R144) -/

theorem splitBlocks_readRange (m : Memory) (k a : Nat) :
    splitBlocks k (readRange m a (64 * k)) = (List.range k).map fun b => readRange m (a + 64 * b) 64 := by
  induction k generalizing a with
  | zero => rfl
  | succ k ih =>
    have hlen : (readRange m a 64).length = 64 := readRange_length m a 64
    rw [show 64 * (k + 1) = 64 + 64 * k by omega, readRange_add, splitBlocks, List.take_left' hlen,
      List.drop_left' hlen, ih, List.range_succ_eq_map, List.map_cons, List.map_map]
    refine congrArg₂ List.cons rfl (List.map_congr_left fun b _ => ?_)
    rw [Function.comp_apply, Nat.mul_succ, Nat.add_assoc, Nat.add_comm 64]

/-- The chunks, each with all its data bytes, are the blocks of the stored bytes. -/
theorem chunks_eq_splitBlocks (s : State) :
    ((List.range (nchunks s)).map fun b => chunkData s b 64) = splitBlocks (nchunks s) (storedBytes s) := by
  simp only [storedBytes_eq, splitBlocks_readRange, chunkData, chunkData_eq, Nat.zero_add]

/-- The walk over the chunks that `PAD` leaves is the digest of the message (R111, R142, R149). -/
theorem foldl_compress_padded {s t : State} (hI : Inv s) (ha : s.phase = .accum)
    (hmem : t.mem = paddedMem s.mem (totalBytes s) (totalBits s)) (hlens : t.lens = paddedLens (totalBytes s)) :
    ((List.range (nchunks t)).map fun b => chunkData t b 64).foldl compress initialHash = sha1 (message s) := by
  have hp := hI.accumPacked ha
  have hcount : nchunks t = blockCount (totalBytes s) := by rw [nchunks, hlens, paddedLens_length]
  have hstored : storedBytes t = padMessage (message s) := by
    rw [storedBytes_eq, hcount, hmem, readRange_paddedMem hI.memWf (fun a => hp.zero_above hI.memInside),
      ← hp.message_eq, padMessage, hp.message_length]
    rfl
  rw [chunks_eq_splitBlocks, hstored, hcount, ← hp.message_length]
  rfl

/-- What a performed `FINALIZE` leaves: the chunks of `PAD`, the digest of the message in `H`, and the response. -/
theorem exec_finalize_performed {s : State} (hI : Inv s) (ha : s.phase = .accum) (hN : 1 ≤ nchunks s) :
    ∃ t, exec .finalize s = .next t ∧ t.phase = .done ∧ t.mem = paddedMem s.mem (totalBytes s) (totalBits s) ∧
      t.lens = paddedLens (totalBytes s) ∧ t.h = sha1 (message s) ∧ AnswersInRun ⟨.ok, some (digestOf t.h)⟩ s t := by
  obtain ⟨r, hexec⟩ := execFinalize_packed hI ha hN
  refine ⟨_, hexec, rfl, finishFinalize_mem _, finishFinalize_lens _, ?digest, ?port, ?observed, rfl, rfl, rfl, rfl⟩
  case digest => rw [finishFinalize_h]
  case port => rw [finishFinalize_port, finishFinalize_h]
  case observed => rw [finishFinalize_observed, finishFinalize_h]

/-- Settles O39: the chunks `FINALIZE` leaves are those `PAD` leaves, whose walk is the digest of the message. -/
theorem finalizeAnswersTheDigestOfTheMessage : Obligations.FinalizeAnswersTheDigestOfTheMessage := by
  intro s hI ha hN
  obtain ⟨t, hexec, hphase, hmem, hlens, hh, hrun⟩ := exec_finalize_performed hI ha hN
  refine ⟨t, hexec, hphase, ?count, hh.trans (foldl_compress_padded hI ha hmem hlens).symm, hrun, hh⟩
  case count =>
    rw [nchunks, hlens]
    exact paddedLens_length (totalBytes s)

/-! ### Runs of micro-steps -/

section
variable {s u : State}

theorem microRun_succ_eq_running {k : Nat} :
    microRun (k + 1) s = .next (.running u) ↔
      ∃ v, microStep s = .next (.running v) ∧ microRun k v = .next (.running u) := by
  rw [microRun, andThen_eq_next]
  constructor
  · rintro ⟨v | v, hv, h⟩
    · exact ⟨v, hv, h⟩
    · cases h
  · rintro ⟨v, hv, h⟩
    exact ⟨_, hv, h⟩

theorem microRun_succ {k : Nat} (h : microStep s = .next (.running u)) : microRun (k + 1) s = microRun k u := by
  rw [microRun, h, andThen_next]

/-- A run goes on from where its first part stands. -/
theorem microRun_add {m : Nat} (h : microRun m s = .next (.running u)) (n : Nat) :
    microRun (m + n) s = microRun n u := by
  induction m generalizing s with
  | zero =>
    cases h
    rw [Nat.zero_add]
  | succ m ih =>
    obtain ⟨v, hv, h⟩ := microRun_succ_eq_running.mp h
    rw [Nat.add_right_comm, microRun_succ hv, ih h]

/-- A run that is not answered yet was not answered at any earlier point. -/
theorem microRun_running_of_le {k n : Nat} (hk : k ≤ n) (h : microRun n s = .next (.running u)) :
    ∃ v, microRun k s = .next (.running v) := by
  induction k generalizing n s with
  | zero => exact ⟨s, rfl⟩
  | succ k ih =>
    obtain ⟨n, rfl⟩ := Nat.exists_eq_add_of_le' hk
    obtain ⟨v, hv, h⟩ := microRun_succ_eq_running.mp h
    rw [microRun_succ hv]
    exact ih (Nat.le_add_left k n) h

/-- The micro-steps from round `T` on are the rounds of the atomic command, and the last of them leads to `FOLD`. -/
theorem microRun_rounds {k : Nat} (hf : s.tr.fstep = .round) (hk : s.tr.t.val + (k + 1) = 80) :
    microRun (k + 1) s = .next (.running (rounds (k + 1) s)) ∧ (rounds (k + 1) s).tr.fstep = .fold := by
  induction k generalizing s with
  | zero => exact ⟨microRun_succ (microStep_round hf), if_neg (by omega)⟩
  | succ k ih =>
    have ht : s.tr.t.val < 79 := by omega
    rw [microRun_succ (microStep_round hf), rounds]
    exact ih (if_pos ht) (by rw [microRound_tr_t, nextRound_val ht]; omega)

end

/-- One pass of the block walk is `LOAD`, `EXPAND`, `INIT` and eighty rounds, which lead to `FOLD`, and that `FOLD`. -/
theorem microRun_blockPass {s t : State} (hf : s.tr.fstep = .load) (h : blockPass s = .next t) :
    ∃ u, microRun 83 s = .next (.running u) ∧ t = microFold u ∧
      u.tr.fstep = .fold ∧ u.tr.blk = s.tr.blk ∧ u.tr.nb = s.tr.nb := by
  obtain ⟨v, hv, h⟩ := andThen_eq_next.mp h
  cases h
  have hload : microStep s = .next (.running v) := by rw [microStep_load hf, hv, andThen_next]
  obtain ⟨hexpand, hblk, hnb⟩ := microLoad_control hv
  obtain ⟨hrun, hfold⟩ := microRun_rounds (s := microInit (microExpand v)) (k := 79) rfl rfl
  refine ⟨_, ?run, rfl, hfold, by simp [hblk], by simp [hnb]⟩
  case run =>
    rw [microRun_succ hload, microRun_succ (microStep_expand hexpand),
      microRun_succ (microStep_init (microExpand_tr_fstep v)), hrun]

/-- The walk over the blocks from `BLK` to the last takes 84 micro-steps for each, the last of them the `FOLD` that
ends the command. -/
theorem microRun_walkBlocks {k : Nat} {s t : State} (hf : s.tr.fstep = .load) (hk : s.tr.blk + (k + 1) = s.tr.nb)
    (h : walkBlocks (k + 1) s = .next t) :
    ∃ u, microRun (84 * k + 83) s = .next (.running u) ∧ microStep u = .next (.answered (finishFinalize t)) := by
  induction k generalizing s with
  | zero =>
    obtain ⟨v, hpass, h⟩ := andThen_eq_next.mp h
    obtain ⟨u, hrun, rfl, hfold, hblk, hnb⟩ := microRun_blockPass hf hpass
    cases h
    exact ⟨u, hrun, microStep_fold_last hfold (by omega)⟩
  | succ k ih =>
    obtain ⟨v, hpass, h⟩ := andThen_eq_next.mp h
    obtain ⟨u, hrun, rfl, hfold, hblk, hnb⟩ := microRun_blockPass hf hpass
    have hmore : u.tr.blk + 1 < u.tr.nb := by omega
    obtain ⟨hload, hnext⟩ := microFold_more hmore
    obtain ⟨x, hx, hlast⟩ := ih hload (by rw [microFold_tr_nb]; omega) h
    refine ⟨x, ?_, hlast⟩
    rw [show 84 * (k + 1) + 83 = 83 + (84 * k + 83 + 1) by omega, microRun_add hrun,
      microRun_succ (microStep_fold_more hfold hmore), hx]

/-- The micro-steps of a `FINALIZE`: `PAD`, then the walk over the blocks, and the last `FOLD` gives the answer. -/
theorem microRun_finalize {s u v : State} {q : Nat} (hpad : microPad (latchLength s) = .next u)
    (hnb : u.tr.nb = q + 1) (hwalk : walkBlocks u.tr.nb u = .next v) :
    ∃ x, microRun (84 * q + 84) (latchLength s) = .next (.running x) ∧
      microStep x = .next (.answered (finishFinalize v)) := by
  have hstart : microStep (latchLength s) = .next (.running u) := by rw [microStep_pad rfl, hpad, andThen_next]
  have hload : u.tr.fstep = .load := congrArg (·.tr.fstep) (microPad_eq_startWalk hpad)
  have hblk : u.tr.blk = 0 := congrArg (·.tr.blk) (microPad_eq_startWalk hpad)
  rw [hnb] at hwalk
  obtain ⟨x, hx, hlast⟩ := microRun_walkBlocks hload (by omega) hwalk
  exact ⟨x, (microRun_succ hstart).trans hx, hlast⟩

/-- Settles O42: the atomic command and the micro-steps perform the same `PAD` and the same walk, so the last
micro-step answers what the command answers; and neither answer holds anything of the old transients. -/
theorem microStepsEndWhereFinalizeEnds : Obligations.MicroStepsEndWhereFinalizeEnds := by
  refine fun s hI ha hN => ⟨?run, fun r => ?transient⟩
  case run =>
    obtain ⟨t, hexec, -⟩ := exec_finalize_performed hI ha hN
    obtain ⟨hp, -⟩ | ⟨-, h0, -⟩ | ⟨-, -, u, v, hpad, hwalk, rfl⟩ := execFinalize_cases hexec
    · exact absurd ha hp
    · omega
    have hnb : u.tr.nb = (totalBytes s + 8) / 64 + 1 := by
      cases (microPad_eq_padded (inv_latchLength hI) ha hN).symm.trans hpad
      exact nchunks_padded (latchLength s)
    obtain ⟨x, hx, hlast⟩ := microRun_finalize hpad hnb hwalk
    refine ⟨_, hexec, ?answered, fun k hk => microRun_running_of_le (by omega) hx⟩
    case answered =>
      rw [show 1 + 84 * ((totalBytes s + 8) / 64 + 1) = 84 * ((totalBytes s + 8) / 64) + 84 + 1 by omega,
        microRun_add hx, microRun, hlast, andThen_next]
  case transient =>
    obtain ⟨p, hp⟩ := execFinalize_packed (s := { s with tr := r }) (hI.of_frame rfl) ha hN
    obtain ⟨q, hq⟩ := execFinalize_packed hI ha hN
    exact hp.trans hq.symm

/-! ### The whole command sequence (R149) -/

theorem step_issue {s : State} {i : Instr} {rest : List HostEvent} (hwf : i.wf = true)
    (hin : s.inputs = issue i :: rest) : step s = exec i (withInputs s rest) := by
  simp only [step, hin, issue, stepCommand, decode_eq_command_iff.mpr (spells_encode hwf)]

theorem runSteps_succ {s t : State} {k : Nat} (h : step s = .next t) : runSteps (k + 1) s = runSteps k t := by
  rw [runSteps, h, andThen_next]

/-- A run of steps goes on from where its first part ends. -/
theorem runSteps_add {m : Nat} {s t : State} (h : runSteps m s = .next t) (n : Nat) :
    runSteps (m + n) s = runSteps n t := by
  induction m generalizing s with
  | zero =>
    cases h
    rw [Nat.zero_add]
  | succ m ih =>
    obtain ⟨u, hu, h⟩ := andThen_eq_next.mp h
    rw [Nat.add_right_comm, runSteps_succ hu, ih h]

/-- From `s` to `t` the engine answered `rs`, and the host has `rest` left to do. -/
structure Answered (rs : List Response) (rest : List HostEvent) (s t : State) : Prop where
  inputs : t.inputs = rest
  observed : t.observed = s.observed ++ rs
  faultMark : t.faultMark = s.faultMark
  cfg : t.cfg = s.cfg

theorem Answered.trans {rs rs' : List Response} {rest rest' : List HostEvent} {s t u : State}
    (h : Answered rs rest s t) (h' : Answered rs' rest' t u) : Answered (rs ++ rs') rest' s u :=
  ⟨h'.inputs, by rw [h'.observed, h.observed, List.append_assoc], h'.faultMark.trans h.faultMark, h'.cfg.trans h.cfg⟩

/-- The response to one command, after the event that presents it is taken. -/
theorem answered_of_answersInRun {r : Response} {rest : List HostEvent} {s t : State}
    (h : AnswersInRun r (withInputs s rest) t) : Answered [r] rest s t := by
  obtain ⟨-, hobs, hin, -, hmark, hcfg⟩ := h
  exact ⟨hin, hobs, hmark, hcfg⟩

/-- A message of at most 2^61 - 1 bytes for which the chunk memory has room (R52, R98). -/
structure Fits (c : Config) (b : List Byte) : Prop where
  length_le : b.length ≤ 2 ^ 61 - 1
  room : ∀ m ∈ c.maxChunks, b.length + 64 ≤ 64 * m

theorem Fits.of_append {c : Config} {b b' : List Byte} (h : Fits c (b ++ b')) : Fits c b :=
  have hle := (List.sublist_append_left b b').length_le
  ⟨hle.trans h.length_le, fun m hm => (Nat.add_le_add_right hle 64).trans (h.room m hm)⟩

theorem wouldExceedCapacity_eq_false {s : State} {n : Nat}
    (h : ∀ m ∈ s.cfg.maxChunks, totalBytes s + n + 64 ≤ 64 * m) : wouldExceedCapacity s n = false := by
  rw [← Bool.not_eq_true, wouldExceedCapacity_iff]
  rintro ⟨m, hm, hlt⟩
  have := h m hm
  omega

/-- `CREATE` in `ABSENT` leaves an engine that holds no byte, whatever the state held before. -/
theorem step_create {s : State} {rest : List HostEvent} (habsent : s.phase = .absent) (hwf : s.cfg.wf = true)
    (hin : s.inputs = issue .create :: rest) :
    ∃ t, step s = .next t ∧ HoldsMessage [] t ∧ Answered [⟨.ok, none⟩] rest s t := by
  have hempty : Inv { withInputs s rest with mem := [], lens := [] } := by
    refine ⟨hwf, rfl, nofun, fun _ => rfl, fun h => ?_, fun h => ?_, fun h => ?_, fun h => ?_, fun h => ?_⟩ <;>
      exact absurd (habsent.symm.trans h) nofun
  exact ⟨_, (step_issue rfl hin).trans (exec_create_absent habsent),
    holdsMessage_respondOk (holdsMessage_freshInstance hempty) none, rfl, rfl, rfl, rfl⟩

theorem holdsMessage_withInputs {b : List Byte} {s : State} (h : HoldsMessage b s) (rest : List HostEvent) :
    HoldsMessage b (withInputs s rest) := ⟨h.inv.of_frame rfl, h.accum, h.message_eq⟩

/-- A presented `APPEND` of bytes that fit is answered `OK` and extends the message. -/
theorem HoldsMessage.step_append {b d : List Byte} {s : State} {n : Nat} {rest : List HostEvent}
    (h : HoldsMessage b s) (hwf : (Instr.append n d).wf = true) (hn : n ≤ 64) (hfits : Fits s.cfg (b ++ d.take n))
    (hin : s.inputs = issue (.append n d) :: rest) :
    ∃ t, step s = .next t ∧ HoldsMessage (b ++ d.take n) t ∧ Answered [⟨.ok, none⟩] rest s t := by
  have hd := payload_length_of_wf hwf
  have h' := holdsMessage_withInputs h rest
  have hlen : (b ++ d.take n).length = totalBytes (withInputs s rest) + n := by
    rw [h'.totalBytes_eq, List.length_append, List.length_take_of_le (by omega)]
  have hmax := hlen ▸ hfits.length_le
  have hcap : wouldExceedCapacity (withInputs s rest) n = false :=
    wouldExceedCapacity_eq_false (hlen ▸ hfits.room)
  exact ⟨_, (step_issue hwf hin).trans (exec_append_performed h'.inv h'.accum hd hn hmax hcap),
    h'.append hd hn hmax hcap, rfl, rfl, rfl, rfl⟩

/-- Presented appends whose bytes fit are all answered `OK` and extend the message by their payloads, in order. -/
theorem HoldsMessage.steps_append {cs : List (Nat × List Byte)} {b : List Byte} {s : State} {rest : List HostEvent}
    (h : HoldsMessage b s) (hcs : ∀ c ∈ cs, (Instr.append c.1 c.2).wf = true ∧ c.1 ≤ 64)
    (hfits : Fits s.cfg (b ++ cs.flatMap fun c => c.2.take c.1))
    (hin : s.inputs = (cs.map fun c => issue (.append c.1 c.2)) ++ rest) :
    ∃ t, runSteps cs.length s = .next t ∧ HoldsMessage (b ++ cs.flatMap fun c => c.2.take c.1) t ∧
      Answered (List.replicate cs.length ⟨.ok, none⟩) rest s t := by
  induction cs generalizing b s with
  | nil => exact ⟨s, rfl, by simpa using h, hin, (List.append_nil _).symm, rfl, rfl⟩
  | cons c cs ih =>
    obtain ⟨⟨hwf, hn⟩, hcs⟩ := List.forall_mem_cons.mp hcs
    rw [List.flatMap_cons, ← List.append_assoc] at hfits ⊢
    obtain ⟨u, hu, hmsg, hans⟩ := h.step_append hwf hn hfits.of_append hin
    obtain ⟨t, ht, hmsg, hans'⟩ := ih hmsg hcs (hans.cfg ▸ hfits) hans.inputs
    exact ⟨t, (runSteps_succ hu).trans ht, hmsg, hans.trans hans'⟩

/-- A presented `FINALIZE` is answered with the digest of the message (R144). -/
theorem HoldsMessage.step_finalize {b : List Byte} {s : State} {rest : List HostEvent} (h : HoldsMessage b s)
    (hb : b ≠ []) (hin : s.inputs = issue .finalize :: rest) :
    ∃ t, step s = .next t ∧ t.phase = .done ∧ Answered [⟨.ok, some (digestOf (sha1 b))⟩] rest s t := by
  have h' := holdsMessage_withInputs h rest
  have hpos := List.length_pos_of_ne_nil hb
  have hchunks : nchunks (withInputs s rest) = (b.length + 63) / 64 := nchunks_of_lens h'.lens_eq
  obtain ⟨t, hexec, hphase, -, -, hh, hrun⟩ := exec_finalize_performed h'.inv h'.accum (by omega)
  rw [hh, h'.message_eq] at hrun
  exact ⟨t, (step_issue rfl hin).trans hexec, hphase, answered_of_answersInRun hrun⟩

/-- The capacity that holds a byte is one of the range of R52. -/
theorem Fits.cfg_wf {c : Config} {b : List Byte} (h : Fits c b) (hb : b ≠ []) : c.wf = true := by
  have hpos := List.length_pos_of_ne_nil hb
  have hroom := h.room
  unfold Config.wf
  cases hmax : c.maxChunks with
  | none => rfl
  | some m =>
    have := hroom m hmax
    exact decide_eq_true (by omega)

/-- Settles O43: one step for `CREATE`, one for each append, and the last for `FINALIZE`. -/
theorem commandSequenceAnswersSha1 : Obligations.CommandSequenceAnswersSha1 := by
  rintro s cs b rest habsent hcs rfl hb hlength hroom hin
  have hfits : Fits s.cfg (cs.flatMap fun c => c.2.take c.1) := ⟨hlength, hroom⟩
  simp only [List.map_append, List.map_cons, List.map_map, List.map_nil, List.cons_append, List.append_assoc,
    List.nil_append] at hin
  obtain ⟨u, hu, hmsg, hcreate⟩ := step_create habsent (hfits.cfg_wf hb) hin
  obtain ⟨v, hv, hmsg, happends⟩ := hmsg.steps_append hcs (hcreate.cfg ▸ hfits) hcreate.inputs
  rw [List.nil_append] at hmsg
  obtain ⟨t, ht, hphase, hfinalize⟩ := hmsg.step_finalize hb happends.inputs
  have hrun := (hcreate.trans happends).trans hfinalize
  refine ⟨t, ?steps, hphase, hrun.inputs, ?observed, hrun.faultMark⟩
  case steps => rw [runSteps_succ hu, runSteps_add hv, runSteps_succ ht, runSteps]
  case observed => rw [hrun.observed, List.singleton_append, ← List.replicate_succ, List.append_assoc]

end Sys2Proof.Machine
end

section
/-! PROOF. The family 60_exceptions.md: the order in which errors are reported (R169), each error (R162 to R167), what
an error leaves (R170, R171), and the fault mark (R178). -/

namespace Sys2Proof.Machine

/-! ### The status a command answers (R169) -/

/-- The first status that applies to the command, in the rule's order, `OK` when no error does (R169). -/
def firstStatus (i : Instr) (s : State) : Status :=
  match i with
  | .create => if s.phase ≠ .absent then .stateError else .ok
  | .append n _ =>
    if s.phase ≠ .accum then .stateError
    else if 64 < n then .oversizedChunk
    else if 2 ^ 61 - 1 < totalBytes s + n then .lengthOverflow
    else if wouldExceedCapacity s n then .bufferFull
    else .ok
  | .finalize => if s.phase ≠ .accum then .stateError else if nchunks s = 0 then .emptyInput else .ok
  | .destroy => if s.phase = .absent then .stateError else .ok

theorem firstStatus_create_eq_ok_iff {s : State} : firstStatus .create s = .ok ↔ s.phase = .absent := by
  simp [firstStatus]

theorem firstStatus_append_eq_ok_iff {s : State} {n : Nat} {d : List Byte} :
    firstStatus (.append n d) s = .ok ↔
      s.phase = .accum ∧ n ≤ 64 ∧ totalBytes s + n ≤ 2 ^ 61 - 1 ∧ wouldExceedCapacity s n = false := by
  simp [firstStatus, ite_eq_iff]

theorem firstStatus_finalize_eq_ok_iff {s : State} :
    firstStatus .finalize s = .ok ↔ s.phase = .accum ∧ nchunks s ≠ 0 := by
  simp [firstStatus, ite_eq_iff]

theorem firstStatus_destroy_eq_ok_iff {s : State} : firstStatus .destroy s = .ok ↔ s.phase ≠ .absent := by
  simp [firstStatus]

/-- A command to which an error applies is refused whole, with the first such error. -/
theorem exec_refused {s : State} {i : Instr} {e : Status} (hst : firstStatus i s = e) (he : e ≠ .ok) :
    exec i s = .next (raise e s) := by
  subst hst
  cases i with
  | create =>
    have hp : s.phase ≠ .absent := mt firstStatus_create_eq_ok_iff.mpr he
    rw [firstStatus, if_pos hp, exec_create_existing hp]
  | append n d =>
    simp only [exec, execAppend, maxAppend, maxBytes, firstStatus] at he ⊢
    split_ifs at he ⊢
    iterate 4 rfl
    all_goals exact absurd rfl he
  | finalize =>
    simp only [exec, execFinalize, firstStatus] at he ⊢
    split_ifs at he ⊢
    iterate 2 rfl
    exact absurd rfl he
  | destroy =>
    have hp : s.phase = .absent := not_not.mp (mt firstStatus_destroy_eq_ok_iff.mpr he)
    rw [firstStatus, if_pos hp, exec_destroy_absent hp]

/-- A command to which no error applies is answered `OK`, and leaves the rest of the run as it was. -/
theorem exec_performed {s t : State} {i : Instr} (hst : firstStatus i s = .ok) (h : exec i s = .next t) :
    ∃ dg, AnswersInRun ⟨.ok, dg⟩ s t := by
  cases i with
  | create =>
    rw [exec_create_absent (firstStatus_create_eq_ok_iff.mp hst)] at h
    cases h
    exact ⟨none, rfl, rfl, rfl, rfl, rfl, rfl⟩
  | append n d =>
    obtain ⟨ha, hn, hm, hc⟩ := firstStatus_append_eq_ok_iff.mp hst
    rcases execAppend_cases h with ⟨hp, -⟩ | ⟨-, hn', -⟩ | ⟨-, -, hm', -⟩ | ⟨-, -, -, hc', -⟩ |
      ⟨-, -, -, -, ⟨-, rfl⟩ | ⟨-, u, hu, rfl⟩⟩
    · exact absurd ha hp
    · omega
    · omega
    · exact absurd (hc.symm.trans hc') nofun
    · exact ⟨none, rfl, rfl, rfl, rfl, rfl, rfl⟩
    · obtain ⟨-, -, -, -, hrun⟩ := absorb_answers hu
      exact ⟨none, hrun⟩
  | finalize =>
    obtain ⟨ha, hN⟩ := firstStatus_finalize_eq_ok_iff.mp hst
    rcases execFinalize_cases h with ⟨hp, -⟩ | ⟨-, h0, -⟩ | ⟨-, -, u, v, hu, hv, rfl⟩
    · exact absurd ha hp
    · exact absurd h0 hN
    · exact ⟨_, (finalize_answers hu hv).2.2⟩
  | destroy =>
    rw [exec_destroy_existing (firstStatus_destroy_eq_ok_iff.mp hst)] at h
    cases h
    exact ⟨none, rfl, rfl, rfl, rfl, rfl, rfl⟩

/-- The step from `s` to `t` answers `r`: the mark is set where the status sets it, and where the status is an error
nothing else changes (R170, R178). -/
structure Responds (r : Response) (s t : State) : Prop where
  port : t.port = some r
  faultMark : t.faultMark = (s.faultMark || r.status.marksRun)
  refused : r.status ≠ .ok → OnlyAnswers r s t

theorem responds_raise (e : Status) (s : State) : Responds ⟨e, none⟩ s (raise e s) :=
  ⟨rfl, rfl, fun _ => raise_only e s⟩

/-- Every command that answers responds with the first status that applies. -/
theorem exec_responds {s t : State} {i : Instr} (h : exec i s = .next t) :
    ∃ r, r.status = firstStatus i s ∧ Responds r s t := by
  by_cases hst : firstStatus i s = .ok
  · obtain ⟨dg, hport, -, -, -, hmark, -⟩ := exec_performed hst h
    exact ⟨_, hst.symm, hport, hmark.trans (Bool.or_false _).symm, absurd rfl⟩
  · cases (exec_refused rfl hst).symm.trans h
    exact ⟨_, rfl, responds_raise _ s⟩

theorem exec_status {s t : State} {i : Instr} (h : exec i s = .next t) :
    t.port.map (·.status) = some (firstStatus i s) := by
  obtain ⟨r, hst, hr⟩ := exec_responds h
  rw [hr.port, Option.map_some, hst]

/-- All commands but `FINALIZE` answer their status without a digest. -/
theorem exec_port {s t : State} {i : Instr} (h : exec i s = .next t) (hi : i ≠ .finalize) :
    t.port = some ⟨firstStatus i s, none⟩ := by
  rcases exec_response h with ⟨hf, -⟩ | ⟨e, hport, -⟩
  · exact absurd hf hi
  · have hst := exec_status h
    rw [hport] at hst ⊢
    rw [← Option.some.inj hst]

/-- Settles O19: each chain is the first status that applies to the command. -/
theorem errorsAreReportedByPriority : Obligations.ErrorsAreReportedByPriority :=
  ⟨fun _ _ _ _ hin hd => ⟨_, step_illegal hin hd, rfl⟩, fun _ _ _ _ h => exec_port h nofun,
    fun _ _ h => exec_status h, fun _ _ h => exec_port h nofun, fun _ _ h => exec_port h nofun⟩

/-! ### The errors one by one (R162 to R164, R166, R167) -/

/-- Settles O8: `IllegalCommand` is raised before any command is performed. -/
theorem illegalWordChangesNothing : Obligations.IllegalWordChangesNothing := fun _ _ _ _ hin hd =>
  ⟨_, step_illegal hin hd, raise_only _ _, Bool.or_true _⟩

/-- Settles O16: past the phase, the length is the first thing checked. -/
theorem oversizedAppendIsRejectedWhole : Obligations.OversizedAppendIsRejectedWhole := by
  refine ⟨fun s n d ha hn => ?refused, fun s i t dg h hport => ?source⟩
  case refused =>
    have hst : firstStatus (.append n d) s = .oversizedChunk := by simp [firstStatus, ha, hn]
    exact ⟨_, exec_refused hst nofun, raise_only _ s, Bool.or_false _⟩
  case source =>
    obtain ⟨hsource, -⟩ := status_source h hport
    exact hsource rfl

/-- Settles O17: of an `APPEND` of at most 64 bytes in `ACCUM` the length of the message is checked first. -/
theorem overlongMessageIsRefused : Obligations.OverlongMessageIsRefused := by
  refine ⟨fun s n d ha hn hm => ?refused, fun s i t dg h hport => ?source⟩
  case refused =>
    have hst : firstStatus (.append n d) s = .lengthOverflow := by
      rw [firstStatus, if_neg (not_not_intro ha), if_neg hn.not_gt, if_pos hm]
    exact ⟨_, exec_refused hst nofun, raise_only _ s, Bool.or_true _⟩
  case source =>
    obtain ⟨-, hsource, -⟩ := status_source h hport
    exact hsource rfl

/-- Settles O18: the chunks are checked last, and `64(M - 1)` bytes are what `M - 1` chunks hold. -/
theorem fullBufferIsRefused : Obligations.FullBufferIsRefused := by
  refine ⟨fun s n d m ha hn hm hmax hroom => ?refused, fun s i t dg h hport => ?source⟩
  case refused =>
    have hc : wouldExceedCapacity s n = true := (wouldExceedCapacity_iff s n).mpr ⟨m, hmax, hroom⟩
    have hst : firstStatus (.append n d) s = .bufferFull := by
      rw [firstStatus, if_neg (not_not_intro ha), if_neg hn.not_gt, if_neg hm.not_gt, if_pos hc]
    exact ⟨_, exec_refused hst nofun, raise_only _ s, Bool.or_true _⟩
  case source =>
    obtain ⟨-, -, hsource, -⟩ := status_source h hport
    obtain ⟨n, d, hi, hc⟩ := hsource rfl
    obtain ⟨m, hmax, hroom⟩ := (wouldExceedCapacity_iff s n).mp hc
    exact ⟨n, d, m, hi, hmax, hroom⟩

/-- Settles O38: packed chunks hold a byte each, so there is no chunk exactly where there is no byte. -/
theorem emptyInputIsRejected : Obligations.EmptyInputIsRejected := by
  refine ⟨fun s ha h0 => ⟨_, exec_finalize_empty ha h0, raise_only _ s, Bool.or_false _⟩,
    fun s i t dg h hport => ?source, fun s hI ha => ?chunks⟩
  case source =>
    obtain ⟨-, -, -, hsource, -⟩ := status_source h hport
    exact hsource rfl
  case chunks =>
    have hcount := (hI.accumPacked ha).nchunks_eq
    omega

/-! ### The fault mark (R178) -/

theorem marksRun_iff {e : Status} :
    e.marksRun = true ↔ e = .illegalCommand ∨ e = .stateError ∨ e = .lengthOverflow ∨ e = .bufferFull := by
  cases e <;> simp [Status.marksRun]

theorem step_decoded {s : State} {p : PortInput} {rest : List HostEvent} {i : Instr}
    (hin : s.inputs = .command p :: rest) (hd : decode p = .command i) :
    step s = exec i { s with inputs := rest } := by
  simp only [step, hin, stepCommand, hd]
  rfl

/-- A presented word is answered as its command, or with `IllegalCommand`. -/
theorem step_command_responds {s t : State} {p : PortInput} {rest : List HostEvent}
    (hin : s.inputs = .command p :: rest) (h : step s = .next t) : ∃ r, Responds r { s with inputs := rest } t := by
  cases hd : decode p with
  | command i =>
    obtain ⟨r, -, hr⟩ := exec_responds ((step_decoded hin hd).symm.trans h)
    exact ⟨r, hr⟩
  | illegal why =>
    cases (step_illegal hin hd).symm.trans h
    exact ⟨_, responds_raise _ _⟩

/-- No event clears the mark: a command can only set it, and a read or a reset leaves it (R178). -/
theorem step_keeps_faultMark {s t : State} (h : step s = .next t) (hmark : s.faultMark = true) :
    t.faultMark = true := by
  rcases step_cases h with ⟨-, rfl⟩ | ⟨p, rest, -, hin, -, -⟩ | ⟨p, rest, -, hin, -, -⟩ | ⟨rest, -, -, rfl⟩ |
    ⟨rest, -, rfl⟩ | ⟨p, rest, -, rfl⟩
  case inr.inl | inr.inr.inl =>
    obtain ⟨r, hr⟩ := step_command_responds hin h
    rw [hr.faultMark, hmark, Bool.true_or]
  all_goals exact hmark

/-- Settles O54: the response says whether the mark is set, and for the documented results it says no. -/
theorem faultMarkIsSetByFourStatusesAndStays : Obligations.FaultMarkIsSetByFourStatusesAndStays := by
  refine ⟨fun s t => step_keeps_faultMark, fun s p rest t hin h => ?presented⟩
  case presented =>
    obtain ⟨r, hr⟩ := step_command_responds hin h
    refine ⟨r, hr.port, ?_, fun hdoc => ⟨hr.refused ?_, ?_⟩⟩
    · rw [hr.faultMark, Bool.or_eq_true, marksRun_iff]
    · rcases hdoc with he | he <;> simp [he]
    · rw [hr.faultMark]
      rcases hdoc with he | he <;> simp [he, Status.marksRun]

/-! ### What an error leaves (R170, R171) -/

/-- Settles O56: a response that is not `OK` was raised. -/
theorem errorsLeaveTheStateUnchanged : Obligations.ErrorsLeaveTheStateUnchanged := by
  intro s i t e dg h hport he
  rcases exec_raises_or_ok h with ⟨e', -, -, rfl⟩ | ⟨dg', hok⟩
  · cases hport
    exact ⟨rfl, raise_only _ s⟩
  · cases hok.symm.trans hport
    exact absurd rfl he

/-- `s` with another response on the port, another observation of the run and another mark. -/
def withRecord (port : Option Response) (observed : List Response) (mark : Bool) (s : State) : State :=
  { s with port := port, observed := observed, faultMark := mark }

theorem finishFinalize_withRecord (port : Option Response) (observed : List Response) (mark : Bool) (s : State) :
    finishFinalize (withRecord port observed mark s) =
      withRecord (finishFinalize s).port (observed ++ [⟨.ok, some (digestOf s.h)⟩]) mark (finishFinalize s) := rfl

/-- `s` with the padded chunks, and the digest of its message in `H` (R142, R149). -/
def hashed (s : State) : State :=
  { s with
    mem := paddedMem s.mem (totalBytes s) (totalBits s)
    lens := paddedLens (totalBytes s)
    h := sha1 (message s) }

theorem exec_finalize_hashed {s : State} (hI : Inv s) (ha : s.phase = .accum) (hN : nchunks s ≠ 0) :
    exec .finalize s = .next (finishFinalize (hashed s)) := by
  obtain ⟨tr, h⟩ := execFinalize_packed hI ha (Nat.one_le_iff_ne_zero.mpr hN)
  rw [exec, h, hashed]
  rfl

theorem hashed_withRecord (port : Option Response) (observed : List Response) (mark : Bool) (s : State) :
    hashed (withRecord port observed mark s) = withRecord port observed mark (hashed s) := by
  simp only [hashed, withRecord]
  rfl

/-- No command looks at the record of the run: beside any other record it gives the same response and leaves the
same engine. -/
theorem exec_withRecord {s u : State} {j : Instr} (hI : Inv s) (hwf : j.wf = true) (h : exec j s = .next u)
    (port : Option Response) (observed : List Response) (mark : Bool) :
    ∃ observed' mark', exec j (withRecord port observed mark s) = .next (withRecord u.port observed' mark' u) := by
  have hIr : Inv (withRecord port observed mark s) := hI.of_frame rfl
  have hstr : firstStatus j (withRecord port observed mark s) = firstStatus j s := by cases j <;> rfl
  by_cases hst : firstStatus j s = .ok
  case neg =>
    cases (exec_refused rfl hst).symm.trans h
    exact ⟨_, _, exec_refused hstr hst⟩
  case pos =>
    cases j with
    | create =>
      have hp := firstStatus_create_eq_ok_iff.mp hst
      cases (exec_create_absent hp).symm.trans h
      exact ⟨_, _, exec_create_absent hp⟩
    | append n d =>
      obtain ⟨ha, hn, hm, hc⟩ := firstStatus_append_eq_ok_iff.mp hst
      have hd := payload_length_of_wf hwf
      cases (exec_append_performed hI ha hd hn hm hc).symm.trans h
      exact ⟨_, _, exec_append_performed hIr ha hd hn hm hc⟩
    | finalize =>
      obtain ⟨ha, hN⟩ := firstStatus_finalize_eq_ok_iff.mp hst
      cases (exec_finalize_hashed hI ha hN).symm.trans h
      have hrec := exec_finalize_hashed hIr ha hN
      rw [hashed_withRecord, finishFinalize_withRecord] at hrec
      exact ⟨_, _, hrec⟩
    | destroy =>
      have hp := firstStatus_destroy_eq_ok_iff.mp hst
      cases (exec_destroy_existing hp).symm.trans h
      exact ⟨_, _, exec_destroy_existing hp⟩

/-- Settles O57: an error changes only the record of the run, which the next command does not look at. -/
theorem failedCommandLeavesNoTrace : Obligations.FailedCommandLeavesNoTrace := by
  intro s i j t u e dg hI hwf hi hport he hj
  obtain ⟨rfl, ht⟩ := errorsLeaveTheStateUnchanged s i t e dg hi hport he
  obtain ⟨observed, mark, hv⟩ := exec_withRecord hI hwf hj t.port t.observed t.faultMark
  rw [show withRecord t.port t.observed t.faultMark s = t by rw [ht]; rfl] at hv
  obtain ⟨r, hr, hobs⟩ := exec_observed hv
  refine ⟨_, hv, rfl, ?observed, rfl⟩
  case observed => rw [hobs, ht, show u.port = some r from hr, Option.toList_some]

end Sys2Proof.Machine
end

section
/-! PROOF. Decoder and encoder: the round trips between commands and presented words (R61, R62, R66), and words of the
table written out. -/

namespace Sys2Proof

/-! ### The round trips -/

/-- Settles O4: the encoder's word spells the command, and the decoder answers what is spelled. -/
theorem decodeInvertsEncode : Obligations.DecodeInvertsEncode := fun _ hwf =>
  decode_eq_command_iff.mpr (spells_encode hwf)

theorem payloadLanes_of_toList (v : Vector Byte 64) : payloadLanes v.toList = v :=
  Vector.toList_inj.mp (payloadLanes_toList v.length_toList)

/-- What a word spells is well-formed: its length field has 8 bits and there are 64 lanes. -/
theorem Spells.wf {p : PortInput} {i : Instr} (h : Spells p i) : i.wf = true := by
  cases i with
  | append n d =>
    obtain ⟨-, rfl, rfl⟩ := h
    simp [Instr.wf, lengthFits, payloadFits, (lenField p.cmd).isLt]
  | create | finalize | destroy => rfl

theorem Spells.encode_cmd {p : PortInput} {i : Instr} (h : Spells p i) : (encode i).cmd = p.cmd := by
  cases i with
  | append n d =>
    obtain ⟨hop, rfl, -⟩ := h
    rw [encode, BitVec.ofNat_toNat, BitVec.setWidth_eq]
    exact (eq_commandWord_iff.mpr ⟨hop, rfl⟩).symm
  | create | finalize | destroy => exact (eq_commandWord_iff.mpr h).symm

theorem Spells.encode_append {p : PortInput} {n : Nat} {d : List Byte} (h : Spells p (.append n d)) :
    encode (.append n d) = p := by
  have hcmd := h.encode_cmd
  obtain ⟨-, -, rfl⟩ := h
  exact congrArg₂ PortInput.mk hcmd (payloadLanes_of_toList p.data)

/-- Settles O5, from what the word spells. -/
theorem encodeInvertsDecode : Obligations.EncodeInvertsDecode := by
  intro p i hd
  have h := decode_eq_command_iff.mp hd
  refine ⟨h.wf, h.encode_cmd, ?_⟩
  rintro n d rfl
  exact h.encode_append

/-! ### Words of the table -/

theorem decode_appendWord (len : BitVec 8) (d : Vector Byte 64) :
    decode ⟨commandWord opAppend len, d⟩ = .command (.append len.toNat d.toList) :=
  decode_eq_command_iff.mpr ⟨opField_commandWord _ _, by rw [lenField_commandWord], rfl⟩

theorem decode_unknownOpcode {op : BitVec 8} (h : op ∉ [opCreate, opAppend, opFinalize, opDestroy]) (len : BitVec 8)
    (d : Vector Byte 64) : decode ⟨commandWord op len, d⟩ = .illegal .opcode := by
  simp only [List.mem_cons, List.not_mem_nil, or_false, not_or] at h
  obtain ⟨hCreate, hAppend, hFinalize, hDestroy⟩ := h
  simp [decode, opField_commandWord, hCreate, hAppend, hFinalize, hDestroy]

theorem decode_reservedLength {op len : BitVec 8} (hop : op ∈ [opCreate, opFinalize, opDestroy]) (hlen : len ≠ 0#8)
    (d : Vector Byte 64) : decode ⟨commandWord op len, d⟩ = .illegal .reservedLength := by
  simp only [List.mem_cons, List.not_mem_nil, or_false] at hop
  rcases hop with rfl | rfl | rfl <;>
    simp [decode, opField_commandWord, lenField_commandWord, ifReservedZero, hlen, opCreate, opAppend, opFinalize,
      opDestroy]

/-- Settles O1: each word is the join of its two fields, which are in the table, in no row of it, or in a row that
reserves the length. -/
theorem opcodeWordsDecode : Obligations.OpcodeWordsDecode := fun d =>
  ⟨decode_eq_command_iff.mpr (eq_commandWord_iff.mp rfl), decode_appendWord 0#8 d, decode_appendWord 5#8 d,
    decode_appendWord 65#8 d, decode_appendWord 255#8 d, decode_eq_command_iff.mpr (eq_commandWord_iff.mp rfl),
    decode_eq_command_iff.mpr (eq_commandWord_iff.mp rfl), decode_unknownOpcode (op := 0#8) (by decide) 0#8 d,
    decode_reservedLength (op := opCreate) (len := 1#8) (by decide) (by decide) d,
    decode_reservedLength (op := opDestroy) (len := 64#8) (by decide) (by decide) d,
    decode_unknownOpcode (op := 5#8) (by decide) 0#8 d, decode_unknownOpcode (op := 0x82#8) (by decide) 0#8 d⟩

end Sys2Proof
end

section
/-! PROOF. The payloads into which the pseudo-command `hash` cuts its bytes (R71). -/

namespace Sys2Proof.Machine

theorem appendOf_full {b : List Byte} (h : b.length = 64) : appendOf b = .append 64 b := by
  simp [appendOf, h]

theorem splitPayloads_nil (k : Nat) : splitPayloads k [] = [] := by
  cases k <;> rfl

/-- The payloads are the whole 64 bytes of the string, in order, and what is left if anything is. -/
theorem splitPayloads_eq {k : Nat} {b : List Byte} (h : b.length ≤ k) :
    splitPayloads k b = ((List.range (b.length / 64)).map fun i => (b.drop (64 * i)).take 64) ++
      (if b.length % 64 = 0 then [] else [b.drop (64 * (b.length / 64))]) := by
  induction k generalizing b with
  | zero => simp [List.length_eq_zero_iff.mp (Nat.le_zero.mp h), splitPayloads_nil]
  | succ k ih =>
    by_cases hb : b = []
    · simp [hb, splitPayloads_nil]
    have hpos := List.length_pos_of_ne_nil hb
    rw [splitPayloads, if_neg hb]
    rcases Nat.lt_or_ge b.length 64 with hlt | hge
    case inl =>
      rw [List.take_of_length_le hlt.le, List.drop_of_length_le hlt.le, splitPayloads_nil, Nat.div_eq_of_lt hlt,
        if_neg (by omega)]
      rfl
    case inr =>
      rw [ih (by rw [List.length_drop]; omega), List.length_drop,
        show b.length / 64 = (b.length - 64) / 64 + 1 by omega,
        show b.length % 64 = (b.length - 64) % 64 by omega, List.range_succ_eq_map, List.map_cons, List.map_map]
      simp only [List.drop_drop, List.cons_append, Function.comp_def, Nat.mul_succ, Nat.add_comm 64, Nat.mul_zero,
        List.drop_zero]

/-- Settles O44: each payload becomes one `append`, whose unused lanes are filled up where the payload is shorter. -/
theorem hashExpandsIntoSixtyFourByteAppends : Obligations.HashExpandsIntoSixtyFourByteAppends := by
  intro b _
  have hwhole : ((List.range (b.length / 64)).map fun i => appendOf ((b.drop (64 * i)).take 64)) =
      (List.range (b.length / 64)).map fun i => Instr.append 64 ((b.drop (64 * i)).take 64) :=
    List.map_congr_left fun i hi => appendOf_full (by rw [List.mem_range] at hi; simp; omega)
  have hrest : (b.drop (64 * (b.length / 64))).length = b.length % 64 := by rw [List.length_drop]; omega
  rw [hashScript, splitPayloads_eq (Nat.le_refl _), List.map_append, List.map_map, Function.comp_def, hwhole,
    apply_ite (List.map appendOf), List.map_nil, List.map_singleton, appendOf, hrest]
  rfl

end Sys2Proof.Machine
end

section
/-! PROOF. The events of the host a step takes (R177, R185), what `CREATE` makes (R80, R81), and the codes of the
statuses (R161). -/

namespace Sys2Proof.Machine

/-! ### Commands and idle steps -/

theorem step_idle {s : State} (h : s.inputs = []) : step s = .next s := by
  simp only [step, h]

theorem decode_wordInput {nbits w : Nat} {i : Instr} (h : decodeTableWord nbits w = some i) :
    decode (wordInput nbits w) = .command i := by
  unfold decodeTableWord at h
  split at h
  · rwa [← Option.some.inj h]
  · cases h

/-- Settles O9: with no event the step takes its first case. -/
theorem idleEngineKeepsItsState : Obligations.IdleEngineKeepsItsState := fun _ => step_idle

/-- Settles O7: a placed word is the first event, with the earlier events as the later ones. -/
theorem stepPerformsTheDecodedCommand : Obligations.StepPerformsTheDecodedCommand :=
  ⟨fun _ _ _ _ => step_decoded, fun s nbits w _ h =>
    step_decoded (s := s.withFetchWord nbits w) (rest := s.inputs) rfl (decode_wordInput h)⟩

/-- Settles O10: the two outcomes of `CREATE`, and its word with the length 0 and with another. -/
theorem createMakesAFreshInstance : Obligations.CreateMakesAFreshInstance := by
  refine ⟨fun s hs => ⟨_, exec_create_absent hs, rfl, rfl, rfl, rfl, rfl, rfl, rfl, ?run⟩,
    fun s hs => ⟨_, exec_create_existing hs, raise_only _ s⟩,
    fun d => decode_eq_command_iff.mpr (eq_commandWord_iff.mp rfl),
    fun s p rest hin hop hlen => ?length⟩
  case run => exact ⟨rfl, rfl, rfl, rfl, rfl, rfl⟩
  case length =>
    obtain ⟨why, hd⟩ := decode_illegal_of_length_ne_zero (p := p) (by omega) hlen
    exact ⟨_, step_illegal hin hd, raise_only _ _⟩

/-! ### Reset (R185) -/

theorem step_resetDuring {s : State} {p : PortInput} {rest : List HostEvent} (h : s.inputs = .resetDuring p :: rest) :
    step s = .next (abandonCommand p (withInputs s rest)) := by
  simp only [step, h]

/-- Settles O49: the two ways to raise `RST` leave the same of what is named here. -/
theorem resetLeavesNoInstance : Obligations.ResetLeavesNoInstance := by
  refine ⟨rfl, rfl, ?_⟩
  rintro s rest (hin | ⟨p, hin⟩)
  · exact ⟨_, step_reset hin, rfl, rfl, digestPort_of_not_done nofun, rfl, rfl, rfl, rfl⟩
  · exact ⟨_, step_resetDuring hin, rfl, rfl, digestPort_of_not_done nofun, rfl, rfl, rfl, rfl⟩

/-- Settles O50: both release what exists, and differ in the response. -/
theorem resetAndDestroyLeaveTheSameState : Obligations.ResetAndDestroyLeaveTheSameState := fun _ _ hin =>
  ⟨_, step_reset hin, rfl, rfl, digestPort_of_not_done nofun, rfl, rfl, fun hs =>
    ⟨_, exec_destroy_existing hs, rfl, rfl, digestPort_of_not_done nofun, rfl, rfl⟩⟩

/-! ### The codes of the statuses (R161) -/

/-- The status a code stands for (R161). -/
def statusOfCode (c : BitVec 3) : Status :=
  match c.toNat with
  | 0 => .ok
  | 1 => .oversizedChunk
  | 2 => .emptyInput
  | 3 => .illegalCommand
  | 4 => .stateError
  | 5 => .lengthOverflow
  | _ => .bufferFull

theorem statusOfCode_code (e : Status) : statusOfCode e.code = e := by cases e <;> rfl

theorem code_ne_seven (e : Status) : e.code ≠ 7#3 := by cases e <;> decide

/-- Settles O59: the table, and from its code each status is found again. -/
theorem statusCodesAreTheTable : Obligations.StatusCodesAreTheTable :=
  ⟨rfl, rfl, rfl, rfl, rfl, rfl, rfl, code_ne_seven, Function.LeftInverse.injective statusOfCode_code⟩

end Sys2Proof.Machine
end

section
/-! PROOF. The rotation (R126) and the equal forms of the round function (44_compressor.md section 3). -/

namespace Sys2Proof.Machine

/-- Settles O31: the highest `n` bits come round to the lowest places, and the others move up by `n`. -/
theorem rotationMovesEveryBit : Obligations.RotationMovesEveryBit := by
  intro x n j hpos hn hj
  rw [rotl32_eq_rotateLeft x hn, BitVec.getLsbD_rotateLeft_of_le hn]
  rcases Nat.lt_or_ge (j + n) 32 with hlt | hge
  · rw [Nat.mod_eq_of_lt hlt, decide_eq_false (by omega), decide_eq_true hlt, cond_false, Bool.true_and,
      Nat.add_sub_cancel]
  · rw [show (j + n) % 32 = j + n - 32 by omega, decide_eq_true (by omega), cond_true]
    congr 1
    omega

theorem chosen_eq_xor (x y z : Bool) : (x && y || !x && z) = (z ^^ x && (y ^^ z)) := by
  revert x y z
  decide

theorem somePair_eq_xor (x y z : Bool) : (x && y || x && z || y && z) = (x && y ^^ x && z ^^ y && z) := by
  revert x y z
  decide

theorem or_eq_xor_of_and_eq_zero {x y : Word} (h : x &&& y = 0#32) : x ||| y = x ^^^ y := by
  ext j hj
  have hbit : (x[j] && y[j]) = false := by rw [← BitVec.getElem_and, h, BitVec.getElem_zero]
  rw [BitVec.getElem_or, BitVec.getElem_xor]
  revert hbit
  cases x[j] <;> simp

section
variable (b c d : Word)

/-- The two terms of choose have no bit in common. -/
theorem choose_disjoint : (b &&& c) &&& (~~~b &&& d) = 0#32 := by
  ext j hj
  simp only [BitVec.getElem_and, BitVec.getElem_not, BitVec.getElem_zero]
  cases b[j] <;> simp

theorem choose_eq_select : (b &&& c) ||| (~~~b &&& d) = d ^^^ (b &&& (c ^^^ d)) := by
  ext j hj
  simp only [BitVec.getElem_or, BitVec.getElem_and, BitVec.getElem_not, BitVec.getElem_xor]
  exact chosen_eq_xor _ _ _

theorem majority_eq_or : (b &&& c) ||| (b &&& d) ||| (c &&& d) = (b &&& c) ||| (d &&& (b ||| c)) := by
  rw [BitVec.or_assoc, BitVec.and_or_distrib_left, BitVec.and_comm d b, BitVec.and_comm d c]

theorem majority_eq_xor : (b &&& c) ||| (b &&& d) ||| (c &&& d) = (b &&& c) ^^^ (b &&& d) ^^^ (c &&& d) := by
  ext j hj
  simp only [BitVec.getElem_or, BitVec.getElem_and, BitVec.getElem_xor]
  exact somePair_eq_xor _ _ _

end

/-- Settles O36: the three forms of choose and of majority are equal bit by bit, but for the sum, in which no bit is
carried. -/
theorem roundFunctionHasTheListedEqualForms : Obligations.RoundFunctionHasTheListedEqualForms := by
  refine ⟨fun t b c d => ⟨fun h => ?choose, fun h => ?majority⟩, fun t u b c d ht hu => ?parity,
    fun s => ⟨rfl, rfl, rfl⟩⟩
  case choose =>
    have hdisjoint := choose_disjoint b c d
    rw [roundF_choose b c d h]
    exact ⟨choose_eq_select b c d, or_eq_xor_of_and_eq_zero hdisjoint,
      (BitVec.add_eq_or_of_and_eq_zero _ _ hdisjoint).symm⟩
  case majority =>
    rw [roundF_majority b c d h]
    exact ⟨majority_eq_or b c d, majority_eq_xor b c d⟩
  case parity => rw [roundF_parity b c d (.inl ht), roundF_parity b c d (.inr hu)]

end Sys2Proof.Machine
end

section
/-! PROOF. The frames of the two commands that write chunk memory: `APPEND` (R91) and `FINALIZE` (R105, R112). -/

namespace Sys2Proof.Machine

/-! ### The frame of `APPEND` -/

/-- Byte `j` of the payload stands at the linear byte number `TOTAL_BYTES + j` (R91). -/
theorem readByte_appendBytes_new {s : State} (hI : Inv s) {n j : Nat} {d : List Byte} (hd : n ≤ d.length)
    (hj : j < n) :
    Memory.readByte (appendBytes (d.take n) s).mem (totalBytes s + j) = d.getD j 0#8 := by
  have hlen : (d.take n).length = n := List.length_take_of_le hd
  rw [appendBytes, Memory.readByte_writeBytes hI.memWf, if_pos (by omega), Nat.add_sub_cancel_left,
    List.getD_eq_getElem?_getD, List.getElem?_take_of_lt hj, List.getD_eq_getElem?_getD]

theorem readByte_appendBytes_old {s : State} (hI : Inv s) {v : List Byte} {a : Nat}
    (h : a < totalBytes s ∨ totalBytes s + v.length ≤ a) :
    Memory.readByte (appendBytes v s).mem a = Memory.readByte s.mem a := by
  rw [appendBytes, Memory.readByte_writeBytes hI.memWf, if_neg (by omega)]

/-- Settles O22, from the one store a performed `APPEND` makes. -/
theorem appendStoresOnlyAtTheEnd : Obligations.AppendStoresOnlyAtTheEnd := by
  intro s n d hI ha hwf hn hm hc
  have hd := payload_length_of_wf hwf
  have hlen : (d.take n).length = n := List.length_take_of_le (by omega)
  have hlens : (respondOk none (appendBytes (d.take n) s)).lens = packedLens (totalBytes s + n) :=
    congrArg (fun l => packedLens (totalBytes s + l)) hlen
  exact ⟨_, exec_append_performed hI ha hd hn hm hc, fun j hj => readByte_appendBytes_new hI (by omega) hj,
    fun a h => readByte_appendBytes_old hI (by rwa [hlen]), totalBytes_of_lens hlens, nchunks_of_lens hlens,
    ha, rfl, rfl, rfl, rfl, rfl, rfl, rfl, rfl, rfl⟩

/-! ### The frame of `FINALIZE` -/

/-- Settles O40: `FINALIZE` leaves the chunks of `PAD`, which writes the marker and the length field and adds at most
a chunk of `len` 0. -/
theorem finalizeChangesOnlyThePadding : Obligations.FinalizeChangesOnlyThePadding := by
  intro s hI ha hN
  obtain ⟨t, hexec, -, hmem, hlens, -, -, -, hinputs, hread, hmark, hcfg⟩ := exec_finalize_performed hI ha hN
  have hlens' : t.lens = (padded s).lens := hlens
  refine ⟨t, hexec, fun a hne hfield => ?bytes, fun k _ => ?lens, ?total, hcfg, hinputs, hread, hmark⟩
  case bytes => rw [hmem, readByte_paddedMem_outsideField hI.memWf _ _ hfield, if_neg hne]
  case lens =>
    rw [← chunkLen_padded hI ha k]
    exact congrArg (fun l => l.getD k 0) hlens'
  case total => exact (congrArg List.sum hlens').trans (totalBytes_padded s)

end Sys2Proof.Machine
end

section
/-! PROOF. The whole machine: what every command answers, the invariants that every step keeps (R13, R16, R52, R96), the
digest that is held (R111, R149), and what writes `H`. -/

namespace Sys2Proof.Machine

/-! ### The invariants after each command -/

theorem inv_raise {s : State} (hI : Inv s) (e : Status) : Inv (raise e s) := hI.of_frame rfl

/-- In `ABSENT` the invariants ask for nothing but a parameter in its range and no chunk. -/
theorem inv_absent {s : State} (hwf : s.cfg.wf = true) (hphase : s.phase = .absent) (hmem : s.mem = [])
    (hlens : s.lens = []) : Inv s where
  cfgWf := hwf
  memWf := by rw [hmem]; rfl
  memInside := by rw [hmem]; nofun
  absentEmpty _ := hlens
  accumPacked h := absurd (hphase.symm.trans h) nofun
  accumHash h := absurd (hphase.symm.trans h) nofun
  accumLength h := absurd (hphase.symm.trans h) nofun
  accumRoom h := absurd (hphase.symm.trans h) nofun
  doneChunks h := absurd (hphase.symm.trans h) nofun

theorem inv_releaseInstance {s : State} (hI : Inv s) : Inv (releaseInstance s) := inv_absent hI.cfgWf rfl rfl rfl

/-- The chunk that `ACCUM` held back has room for what `PAD` may add (R52). -/
theorem inv_finalized {s : State} (hI : Inv s) (ha : s.phase = .accum) : Inv (finishFinalize (hashed s)) := by
  have hold := (hI.accumPacked ha).nchunks_eq
  have hcount : nchunks (finishFinalize (hashed s)) = blockCount (totalBytes s) := paddedLens_length (totalBytes s)
  refine ⟨hI.cfgWf, wf_paddedMem hI.memWf _ _, fun c hc => ?inside, nofun, nofun, nofun, nofun, nofun,
    fun _ => ⟨?some, fun m hm => ?room⟩⟩
  case inside =>
    rw [hcount]
    exact mem_paddedMem (fun c hc => hold ▸ hI.memInside c hc) _ c hc
  case some =>
    rw [hcount, blockCount]
    omega
  case room =>
    have hroom := hI.accumRoom ha m hm
    rw [hcount, blockCount]
    omega

/-! ### What every command answers -/

/-- What the command leaves when no error applies to it. -/
def performed (i : Instr) (s : State) : State :=
  match i with
  | .create => respondOk none (freshInstance s)
  | .append n d => respondOk none (appendBytes (d.take n) s)
  | .finalize => finishFinalize (hashed s)
  | .destroy => respondOk none (releaseInstance s)

/-- What the command leaves: the first error that applies to it is raised (R169), and without one it is performed. -/
def outcome (i : Instr) (s : State) : State :=
  if firstStatus i s = .ok then performed i s else raise (firstStatus i s) s

theorem outcome_of_ok {i : Instr} {s : State} (h : firstStatus i s = .ok) : outcome i s = performed i s := if_pos h

theorem outcome_of_error {i : Instr} {s : State} (h : firstStatus i s ≠ .ok) :
    outcome i s = raise (firstStatus i s) s := if_neg h

section
variable {s : State} {i : Instr} (hI : Inv s) (hwf : i.wf = true)
include hI hwf

theorem exec_eq_outcome : exec i s = .next (outcome i s) := by
  by_cases hst : firstStatus i s = .ok
  case neg => rw [outcome_of_error hst, exec_refused rfl hst]
  case pos =>
    rw [outcome_of_ok hst]
    cases i with
    | create => exact exec_create_absent (firstStatus_create_eq_ok_iff.mp hst)
    | append n d =>
      obtain ⟨ha, hn, hm, hc⟩ := firstStatus_append_eq_ok_iff.mp hst
      exact exec_append_performed hI ha (payload_length_of_wf hwf) hn hm hc
    | finalize =>
      obtain ⟨ha, hN⟩ := firstStatus_finalize_eq_ok_iff.mp hst
      exact exec_finalize_hashed hI ha hN
    | destroy => exact exec_destroy_existing (firstStatus_destroy_eq_ok_iff.mp hst)

theorem eq_outcome {t : State} (h : exec i s = .next t) : t = outcome i s :=
  Host.Outcome.next.inj (h.symm.trans (exec_eq_outcome hI hwf))

theorem inv_outcome : Inv (outcome i s) := by
  by_cases hst : firstStatus i s = .ok
  case neg =>
    rw [outcome_of_error hst]
    exact inv_raise hI _
  case pos =>
    rw [outcome_of_ok hst]
    cases i with
    | create => exact inv_respondOk (inv_freshInstance hI) none
    | append n d =>
      obtain ⟨ha, hn, hm, hc⟩ := firstStatus_append_eq_ok_iff.mp hst
      have hd := payload_length_of_wf hwf
      have hlen : (d.take n).length = n := List.length_take_of_le (by omega)
      exact inv_respondOk (inv_appendBytes hI ha (by rwa [hlen]) (by rwa [hlen])) none
    | finalize => exact inv_finalized hI (firstStatus_finalize_eq_ok_iff.mp hst).1
    | destroy => exact inv_respondOk (inv_releaseInstance hI) none

end

/-- Settles O55: a refusal is one response, and so is the answer of a command that is performed. -/
theorem everyCommandIsAnsweredOnce : Obligations.EveryCommandIsAnsweredOnce := by
  intro s i hI hwf
  have hexec := exec_eq_outcome hI hwf
  by_cases hst : firstStatus i s = .ok
  case neg =>
    rw [outcome_of_error hst] at hexec
    exact ⟨_, _, hexec, rfl, rfl, rfl, rfl, rfl⟩
  case pos =>
    obtain ⟨dg, hport, hobs, hinputs, hread, -, hcfg⟩ := exec_performed hst hexec
    exact ⟨_, _, hexec, hport, hobs, hinputs, hcfg, hread⟩

/-! ### The invariants at reset and after every step -/

theorem inv_reset : Inv State.reset := inv_absent rfl rfl rfl rfl

theorem digestMatches_of_not_done {s : State} (h : s.phase ≠ .done) : DigestMatchesMemory s :=
  fun hdone => absurd hdone h

/-- Settles O51: in `ABSENT` the invariants ask for the range of the parameter alone. -/
theorem invariantsHoldAtReset : Obligations.InvariantsHoldAtReset := ⟨inv_reset, digestMatches_of_not_done nofun⟩

/-- Settles O52: a presented command is well-formed, and the other events leave the engine or release its chunks. -/
theorem everyStepKeepsTheInvariant : Obligations.EveryStepKeepsTheInvariant := by
  intro s t hI h
  have hrest (rest : List HostEvent) : Inv (withInputs s rest) := hI.of_frame rfl
  rcases step_cases h with ⟨-, rfl⟩ | ⟨p, rest, i, -, hd, hexec⟩ | ⟨p, rest, -, -, -, rfl⟩ | ⟨rest, -, -, rfl⟩ |
    ⟨rest, -, rfl⟩ | ⟨p, rest, -, rfl⟩
  · exact hI
  · have hwf := (decode_eq_command_iff.mp hd).wf
    rw [eq_outcome (hrest rest) hwf hexec]
    exact inv_outcome (hrest rest) hwf
  · exact inv_raise (hrest rest) _
  · exact hI.of_frame rfl
  · exact inv_absent hI.cfgWf rfl rfl rfl
  · exact inv_absent hI.cfgWf rfl rfl rfl

/-! ### The digest that is held (R111, R149) -/

/-- Whether the digest is that of the chunks depends on the phase, the chunks and `H` only. -/
theorem DigestMatchesMemory.of_frame {s t : State} (hD : DigestMatchesMemory s)
    (h : t = { s with
      tr := t.tr, inputs := t.inputs, port := t.port, observed := t.observed, hostRead := t.hostRead
      faultMark := t.faultMark, freeIdx := t.freeIdx }) : DigestMatchesMemory t := by
  rw [h]
  exact hD

theorem storedBytes_congr {s t : State} (hmem : s.mem = t.mem) (hlens : s.lens = t.lens) :
    storedBytes s = storedBytes t := by
  rw [storedBytes_eq, storedBytes_eq, nchunks, nchunks, hmem, hlens]

theorem hashed_h (s : State) : (hashed s).h = sha1 (message s) := by rw [hashed]

theorem storedBytes_hashed {s : State} (hI : Inv s) (ha : s.phase = .accum) :
    storedBytes (hashed s) = padMessage (message s) := by
  have hpadded : storedBytes (hashed s) = storedBytes (padded (latchLength s)) := storedBytes_congr rfl rfl
  rw [hpadded, storedBytes_padded (inv_latchLength hI) ha, padMessage, (hI.accumPacked ha).message_length]
  rfl

theorem digestMatches_finalized {s : State} (hI : Inv s) (ha : s.phase = .accum) (hN : nchunks s ≠ 0) :
    DigestMatchesMemory (finishFinalize (hashed s)) := by
  have hp := hI.accumPacked ha
  have hstored : storedBytes (finishFinalize (hashed s)) = storedBytes (hashed s) :=
    storedBytes_congr (finishFinalize_mem _) (finishFinalize_lens _)
  refine fun _ => ⟨message s, fun hempty => hN ?nonempty, hstored.trans (storedBytes_hashed hI ha), ?digest⟩
  case nonempty =>
    have hlen := hp.message_length
    rw [hempty, List.length_nil] at hlen
    rw [hp.nchunks_eq, ← hlen]
  case digest => rw [finishFinalize_h, hashed_h]

theorem digestMatches_outcome {s : State} {i : Instr} (hI : Inv s) (hD : DigestMatchesMemory s) :
    DigestMatchesMemory (outcome i s) := by
  by_cases hst : firstStatus i s = .ok
  case neg =>
    rw [outcome_of_error hst]
    exact hD.of_frame rfl
  case pos =>
    rw [outcome_of_ok hst]
    cases i with
    | create => exact digestMatches_of_not_done nofun
    | append n d =>
      obtain ⟨ha, -⟩ := firstStatus_append_eq_ok_iff.mp hst
      exact digestMatches_of_not_done fun hdone => nomatch ha.symm.trans hdone
    | finalize =>
      obtain ⟨ha, hN⟩ := firstStatus_finalize_eq_ok_iff.mp hst
      exact digestMatches_finalized hI ha hN
    | destroy => exact digestMatches_of_not_done nofun

/-- Settles O53: only a performed `FINALIZE` leads to `DONE`, and in `DONE` nothing but a release changes the chunks or
`H`. -/
theorem everyStepKeepsTheDigestMatched : Obligations.EveryStepKeepsTheDigestMatched := by
  intro s t hI hD h
  rcases step_cases h with ⟨-, rfl⟩ | ⟨p, rest, i, -, hd, hexec⟩ | ⟨p, rest, -, -, -, rfl⟩ | ⟨rest, -, -, rfl⟩ |
    ⟨rest, -, rfl⟩ | ⟨p, rest, -, rfl⟩
  · exact hD
  · have hrest : Inv (withInputs s rest) := hI.of_frame rfl
    rw [eq_outcome hrest (decode_eq_command_iff.mp hd).wf hexec]
    exact digestMatches_outcome hrest (hD.of_frame rfl)
  · exact hD.of_frame rfl
  · exact hD.of_frame rfl
  · exact digestMatches_of_not_done nofun
  · exact digestMatches_of_not_done nofun

/-! ### What writes `H` (R13) -/

theorem microLoad_h {s t : State} (h : microLoad s = .next t) : t.h = s.h := by
  obtain ⟨m, -, h⟩ := andThen_eq_next.mp h
  cases h
  rfl

/-- Of the micro-steps only `FOLD` writes `H`. -/
theorem microStep_h {s u : State} (h : microStep s = .next (.running u)) (hfold : s.tr.fstep ≠ .fold) :
    u.h = s.h := by
  cases hf : s.tr.fstep with
  | pad =>
    rw [microStep_pad hf] at h
    rw [microPad_frame (andThen_running h)]
  | load =>
    rw [microStep_load hf] at h
    exact microLoad_h (andThen_running h)
  | expand =>
    cases (microStep_expand hf).symm.trans h
    exact microExpand_h s
  | init =>
    cases (microStep_init hf).symm.trans h
    rfl
  | round =>
    cases (microStep_round hf).symm.trans h
    rfl
  | fold => exact absurd hf hfold

/-- Settles O60: of the commands that leave `H`, a refused one changes the record only, and a performed `APPEND` the
chunks. -/
theorem onlyTheFoldChangesTheHash : Obligations.OnlyTheFoldChangesTheHash := by
  refine ⟨fun s u => microStep_h, fun s i t h hne => ?command, fun s hI => hI.accumHash⟩
  case command =>
    by_cases hst : firstStatus i s = .ok
    case neg =>
      cases (exec_refused rfl hst).symm.trans h
      exact absurd rfl hne
    case pos =>
      cases i with
      | create => exact .inl ⟨rfl, firstStatus_create_eq_ok_iff.mp hst⟩
      | append n d => exact absurd (exec_append_hashState h).1 hne
      | finalize => exact .inr (.inl ⟨rfl, (firstStatus_finalize_eq_ok_iff.mp hst).1⟩)
      | destroy => exact .inr (.inr ⟨rfl, firstStatus_destroy_eq_ok_iff.mp hst⟩)

end Sys2Proof.Machine
end

section
/-! PROOF. What the responses depend on: the parameter, the phase and the chunks, and nothing that the spec leaves
unspecified (R28, R187, R196). -/

namespace Sys2Proof.Machine

/-- The two states agree in all that a response depends on: the parameter, the phase and the chunks. -/
structure SameChunks (s s' : State) : Prop where
  cfg : s.cfg = s'.cfg
  phase : s.phase = s'.phase
  mem : s.mem = s'.mem
  lens : s.lens = s'.lens

namespace SameChunks
variable {s s' : State} (h : SameChunks s s')
include h

theorem totalBytes_eq : totalBytes s = totalBytes s' := congrArg List.sum h.lens

theorem nchunks_eq : nchunks s = nchunks s' := congrArg List.length h.lens

theorem message_eq : message s = message s' := by
  have hbyte : chunkByte s = chunkByte s' := by
    funext k o
    rw [chunkByte, chunkByte, h.mem]
  simp only [message, chunkData, hbyte, chunkLen, h.nchunks_eq, h.lens]

theorem wouldExceedCapacity_eq (n : Nat) : wouldExceedCapacity s n = wouldExceedCapacity s' n := by
  rw [Bool.eq_iff_iff, wouldExceedCapacity_iff, wouldExceedCapacity_iff, h.cfg, h.totalBytes_eq]

theorem firstStatus_eq (i : Instr) : firstStatus i s = firstStatus i s' := by
  cases i with
  | create | finalize | destroy => simp only [firstStatus, h.phase, h.nchunks_eq]
  | append n d => simp only [firstStatus, h.wouldExceedCapacity_eq, h.phase, h.totalBytes_eq]

theorem appendBytes (v : List Byte) : SameChunks (appendBytes v s) (appendBytes v s') where
  cfg := h.cfg
  phase := h.phase
  mem := by simp only [Machine.appendBytes, h.mem, h.totalBytes_eq]
  lens := by simp only [Machine.appendBytes, h.totalBytes_eq]

theorem hashed : SameChunks (hashed s) (hashed s') where
  cfg := h.cfg
  phase := h.phase
  mem := by simp only [Machine.hashed, totalBits, h.mem, h.totalBytes_eq]
  lens := by simp only [Machine.hashed, h.totalBytes_eq]

theorem respondOk (dg : Option (BitVec 160)) : SameChunks (respondOk dg s) (respondOk dg s') :=
  ⟨h.cfg, h.phase, h.mem, h.lens⟩

theorem finishFinalize : SameChunks (finishFinalize s) (finishFinalize s') where
  cfg := by rw [finishFinalize_cfg, finishFinalize_cfg, h.cfg]
  phase := by rw [finishFinalize_phase, finishFinalize_phase]
  mem := by rw [finishFinalize_mem, finishFinalize_mem, h.mem]
  lens := by rw [finishFinalize_lens, finishFinalize_lens, h.lens]

/-- The command gives both the same response, and leaves both with the same chunks. -/
theorem outcome_eq (i : Instr) :
    SameChunks (outcome i s) (outcome i s') ∧ (outcome i s).port = (outcome i s').port := by
  have hst' := h.firstStatus_eq i
  by_cases hst : firstStatus i s = .ok
  case neg =>
    rw [outcome_of_error hst, outcome_of_error (hst' ▸ hst), hst']
    exact ⟨⟨h.cfg, h.phase, h.mem, h.lens⟩, rfl⟩
  case pos =>
    rw [outcome_of_ok hst, outcome_of_ok (hst' ▸ hst)]
    cases i with
    | create => exact ⟨⟨h.cfg, rfl, rfl, rfl⟩, rfl⟩
    | append n d => exact ⟨(h.appendBytes (d.take n)).respondOk none, rfl⟩
    | finalize =>
      refine ⟨h.hashed.finishFinalize, ?_⟩
      rw [performed, performed, finishFinalize_port, finishFinalize_port, hashed_h, hashed_h, h.message_eq]
    | destroy => exact ⟨⟨h.cfg, rfl, rfl, rfl⟩, rfl⟩

end SameChunks

/-- In `ABSENT` there is no chunk and no byte of one. -/
theorem Inv.absent_chunks {s : State} (hI : Inv s) (h : s.phase = .absent) : s.lens = [] ∧ s.mem = [] := by
  have hlens := hI.absentEmpty h
  refine ⟨hlens, List.eq_nil_iff_forall_not_mem.mpr fun c hc => ?_⟩
  have hin := hI.memInside c hc
  rw [nchunks, hlens, List.length_nil] at hin
  omega

/-- States that meet the invariants and have the same chunks answer every sequence of commands alike. -/
theorem runCommands_sameChunks {cmds : List Instr} {s s' t : State} (hI : Inv s) (hI' : Inv s')
    (h : SameChunks s s') (hwf : ∀ i ∈ cmds, i.wf = true) (hrun : runCommands cmds s = .next t) :
    ∃ (t' : State) (rs : List Response), runCommands cmds s' = .next t' ∧ t.observed = s.observed ++ rs ∧
      t'.observed = s'.observed ++ rs ∧ rs.length = cmds.length := by
  induction cmds generalizing s s' with
  | nil =>
    cases hrun
    exact ⟨s', [], rfl, (List.append_nil _).symm, (List.append_nil _).symm, rfl⟩
  | cons i cmds ih =>
    obtain ⟨hi, hwf⟩ := List.forall_mem_cons.mp hwf
    have hexec := exec_eq_outcome hI hi
    have hexec' := exec_eq_outcome hI' hi
    obtain ⟨hsame, hport⟩ := h.outcome_eq i
    obtain ⟨r, hr, hobs⟩ := exec_observed hexec
    obtain ⟨r', hr', hobs'⟩ := exec_observed hexec'
    obtain rfl : r = r' := Option.some.inj (hr.symm.trans (hport.trans hr'))
    rw [runCommands, hexec, andThen_next] at hrun
    obtain ⟨t', rs, hrun', ht, ht', hlen⟩ := ih (inv_outcome hI hi) (inv_outcome hI' hi) hsame hwf hrun
    refine ⟨t', r :: rs, ?_, ?_, ?_, congrArg Nat.succ hlen⟩
    · rw [runCommands, hexec', andThen_next, hrun']
    · rw [ht, hobs, List.append_assoc, List.singleton_append]
    · rw [ht', hobs', List.append_assoc, List.singleton_append]

/-- Settles O58: in `ABSENT` there are no chunks in which two states could differ. -/
theorem responsesIgnoreUnspecifiedState : Obligations.ResponsesIgnoreUnspecifiedState := by
  intro cmds s s' t hI hI' ha ha' hcfg hwf hrun
  obtain ⟨hlens, hmem⟩ := hI.absent_chunks ha
  obtain ⟨hlens', hmem'⟩ := hI'.absent_chunks ha'
  exact runCommands_sameChunks hI hI'
    ⟨hcfg, ha.trans ha'.symm, hmem.trans hmem'.symm, hlens.trans hlens'.symm⟩ hwf hrun

end Sys2Proof.Machine
end
